-- ==== Sys2Proof/Word.lean ====
section
/-!
DEFINITION. The one word type of the machine: the unsigned byte of rule R7.
-/

namespace Sys2Proof

/-- A byte, bits 7 down to 0, always read as an unsigned number 0 to 255 (R7).
Registers, memory cells, addresses, operands and immediates all have this width, and its addition and
subtraction wrap modulo 256 (R5 `OVERFLOW`, R76). -/
abbrev Byte := BitVec 8

end Sys2Proof
end

