-- ==== Sys2Proof/Config.lean ====
section
/-!
DEFINITION. The implementation parameters of rule R5 that are values. The widths of R5 (`XLEN`, `CELL_W`, `ADDR_W`,
`PC_W`, all 8) are the type `Byte`; its policies (`OVERFLOW`, `PC_WRAP`, `FETCH_WRAP`, `SP_WRAP`) are that type's
arithmetic; `REG_INDEX_POLICY` is `Machine.regIdx`; `FL_RESET` is `Machine.Flag.atReset`.
The spec leaves no value of this machine open, so there is no free value.
-/

namespace Sys2Proof.Config

/-- `MEM_SIZE`: the number of memory cells (R5, R30). -/
def memSize : Nat := 256

/-- `NREG`: the number of general registers (R5, R20). An abbreviation, since it is the register file's length. -/
abbrev numRegs : Nat := 8

/-- `SP_INDEX`: the register used as stack pointer (R5, R21). -/
abbrev spIndex : Fin numRegs := 7

/-- `SP_RESET`: the stack pointer after reset (R5, R37). -/
def spReset : Byte := 255#8

/-- `GPR_RESET`: registers 0 to 6 after reset (R5, R37; the spec's decision D3). -/
def gprReset : Byte := 0#8

/-- `PC_RESET`: the program counter after reset (R5, R37). -/
def pcReset : Byte := 0#8

/-- What a memory cell holds after reset: memory is zero-filled (R30, R37). -/
def cellReset : Byte := 0#8

/-- `LOAD_BASE`: the address the program image is copied to (R5, R52). -/
def loadBase : Byte := 0#8

/-- `MAX_INSTR_LEN`: the longest instruction, in bytes (R5, R100). -/
def maxInstrLen : Nat := 3

end Sys2Proof.Config
end

