-- ==== Sys2Proof/Syntax.lean ====
section
/-!
DEFINITION. The instruction type: one constructor per row of the opcode catalogue (R106), in the table's order.
-/

namespace Sys2Proof

/-- The twelve instructions of R106. An operand is the raw byte that stands in the instruction: the instruction's own
rule checks it (R134, R109), so a register operand byte above 7 is an instruction too, and raises `IllegalOperand`. -/
inductive Instr where
  /-- LDI a, imm: format `OP_R_I` (R104), rule R210. -/
  | ldi (opa imm : Byte)
  /-- HLT: format `OP` (R101), rule R193. -/
  | hlt
  /-- PRN a: format `OP_R` (R102), rule R211. -/
  | prn (opa : Byte)
  /-- MUL a, b: format `OP_R_R` (R103), rule R151. -/
  | mul (opa opb : Byte)
  /-- POP a: format `OP_R` (R102), rule R173. -/
  | pop (opa : Byte)
  /-- PUSH a: format `OP_R` (R102), rule R172. -/
  | push (opa : Byte)
  /-- CALL a: format `OP_R` (R102), rule R174. -/
  | call (opa : Byte)
  /-- RET: format `OP` (R101), rule R175. -/
  | ret
  /-- CMP a, b: format `OP_R_R` (R103), rule R152. -/
  | cmp (opa opb : Byte)
  /-- JMP a: format `OP_R` (R102), rule R190. -/
  | jmp (opa : Byte)
  /-- JNE a: format `OP_R` (R102), rule R192. -/
  | jne (opa : Byte)
  /-- JEQ a: format `OP_R` (R102), rule R191. -/
  | jeq (opa : Byte)
  deriving DecidableEq, Repr

end Sys2Proof
end

