-- ==== Sys2Proof/WellFormed.lean ====
section
/-!
DEFINITION. Which instructions are well formed: every byte used as a register index names a register (R102 to R104, R109).
-/

namespace Sys2Proof

/-- The operand byte names a register: its value is 0 to 7 (R109). -/
def legalReg (b : Byte) : Bool := decide (b.toNat < Config.numRegs)

/-- Every operand byte the instruction uses as a register index is legal. LDI's immediate is not one (R108, R110).
An instruction that is not well formed still executes: it raises `IllegalOperand` (R222). -/
def Instr.wellFormed : Instr → Bool
  | .ldi opa _   => legalReg opa
  | .hlt         => true
  | .prn opa     => legalReg opa
  | .mul opa opb => legalReg opa && legalReg opb
  | .pop opa     => legalReg opa
  | .push opa    => legalReg opa
  | .call opa    => legalReg opa
  | .ret         => true
  | .cmp opa opb => legalReg opa && legalReg opb
  | .jmp opa     => legalReg opa
  | .jne opa     => legalReg opa
  | .jeq opa     => legalReg opa

end Sys2Proof
end

