-- ==== Sys2Proof/Decode.lean ====
section
/-!
DEFINITION. The decoder, the encoder and the lengths, from the opcode catalogue of R106.
-/

namespace Sys2Proof

/-- Why a decode fails. -/
inductive DecodeError where
  /-- The byte is not one of the twelve opcodes (R111, R132). -/
  | unknownOpcode (opc : Byte)
  deriving DecidableEq, Repr

/-- Decode (R132, R133): the whole opcode byte selects one of twelve rows of R106, or none. The two operand bytes go to
the instruction as they are (R134); what an instruction does not use is dropped (R110). -/
def decode (opc opa opb : Byte) : Except DecodeError Instr :=
  match opc with
  | 0b10000010#8 => .ok (.ldi opa opb)
  | 0b00000001#8 => .ok .hlt
  | 0b01000111#8 => .ok (.prn opa)
  | 0b10100010#8 => .ok (.mul opa opb)
  | 0b01000110#8 => .ok (.pop opa)
  | 0b01000101#8 => .ok (.push opa)
  | 0b01010000#8 => .ok (.call opa)
  | 0b00010001#8 => .ok .ret
  | 0b10100111#8 => .ok (.cmp opa opb)
  | 0b01010100#8 => .ok (.jmp opa)
  | 0b01010110#8 => .ok (.jne opa)
  | 0b01010101#8 => .ok (.jeq opa)
  | _ => .error (.unknownOpcode opc)

/-- The bytes of an instruction in address order (R73, R100 to R104), the opcodes written as R106's hex column has them. -/
def encode : Instr → List Byte
  | .ldi opa imm => [0x82#8, opa, imm]
  | .hlt         => [0x01#8]
  | .prn opa     => [0x47#8, opa]
  | .mul opa opb => [0xA2#8, opa, opb]
  | .pop opa     => [0x46#8, opa]
  | .push opa    => [0x45#8, opa]
  | .call opa    => [0x50#8, opa]
  | .ret         => [0x11#8]
  | .cmp opa opb => [0xA7#8, opa, opb]
  | .jmp opa     => [0x54#8, opa]
  | .jne opa     => [0x56#8, opa]
  | .jeq opa     => [0x55#8, opa]

/-- The length column of R106, in bytes: a function of the opcode byte alone, and no length for an unknown opcode (R105). -/
def opcodeLength (opc : Byte) : Option Nat :=
  match opc with
  | 0x82#8 | 0xA2#8 | 0xA7#8 => some 3
  | 0x47#8 | 0x46#8 | 0x45#8 | 0x50#8 | 0x54#8 | 0x56#8 | 0x55#8 => some 2
  | 0x01#8 | 0x11#8 => some 1
  | _ => none

/-- The image of a list of instructions placed one after the other (R73, R115). -/
def encodeAll : List Instr → List Byte
  | []      => []
  | i :: is => encode i ++ encodeAll is

/-- Byte `k` of an instruction whose low `nbits` bits are `w`, numbered as the opcode table numbers them: byte 0 is the
opcode byte, at the lowest address; every bit from `nbits` up is 0. -/
def tableByte (nbits w k : Nat) : Byte := BitVec.ofNat 8 (w % 2 ^ nbits / 2 ^ (8 * k))

/-- What the decoder reads from an instruction whose bits are `w` in the opcode table's numbering. -/
def decodeTableWord (nbits w : Nat) : Option Instr :=
  (decode (tableByte nbits w 0) (tableByte nbits w 1) (tableByte nbits w 2)).toOption

end Sys2Proof
end

