-- ==== Sys2Proof/Machine/State.lean ====
section
/-!
DEFINITION. The state of the core (spec file 10_state.md), its faults, and the state after reset (R37).
-/

namespace Sys2Proof.Machine

/-- The flags register `fl` (R27), an enumeration as R29 advises. -/
inductive Flag where
  /-- `NONE`: no compare has executed since reset; no instruction produces it. -/
  | none
  /-- `EQ`: the last compare found its operands equal. -/
  | eq
  /-- `LT`: the last compare found the first operand less. -/
  | lt
  /-- `GT`: the last compare found the first operand greater. -/
  | gt
  deriving DecidableEq, Repr

/-- `FL_RESET` (R5, R37; the spec's decision D4). -/
def Flag.atReset : Flag := .none

/-- The run state (R31). -/
inductive RunState where
  /-- `IDLE`: reset has been applied and no step requested; the host may load memory. -/
  | idle
  /-- `RUNNING`: steps execute instructions. -/
  | running
  /-- `HALTED`: HLT has executed; final. -/
  | halted
  /-- `FAULTED`: a fault was raised; final. -/
  | faulted
  deriving DecidableEq, Repr

/-- The instruction latches of R34: the three bytes fetched at the start of the current step. -/
structure Latches where
  /-- The byte at `pc`. -/
  opc : Byte
  /-- The byte at `pc + 1`. -/
  opa : Byte
  /-- The byte at `pc + 2`. -/
  opb : Byte
  deriving DecidableEq, Repr

/-- The cells that do not hold `Config.cellReset`, as (address, byte) pairs in rising order of address (log entry 4). -/
abbrev Memory := List Host.Cell

/-- The faults (R220 to R222), with the byte each records. Raising one is an effect on the state (`raise`, R223): the
step still answers a next state, one whose run state is `FAULTED`, and never `Host.Outcome.fault` (log entry 1). -/
inductive Fault where
  /-- Code 1, raised by `step` when the fetched opcode byte is not one of the twelve (R220, R135). Safe: the spec's own stop. -/
  | unknownOpcode (opc : Byte)
  /-- Code 2, reserved for an internal check (R221); nothing raises it (R154). Safe. -/
  | aluUnsupported
  /-- Code 3, raised through `regIdx` by the ten instructions with a register operand, when the operand byte is above 7
  (R222). Safe: the spec's own stop. -/
  | illegalOperand (operand : Byte)
  deriving DecidableEq, Repr

/-- Why the model itself declines to go on. -/
inductive Refusal where
  /-- An instruction without a meaning, named as the opcode table names it. No arm of `exec` answers it: every instruction
  has its meaning. It would be safe (a stop). -/
  | notModelled (mnemonic : String)
  deriving DecidableEq, Repr

/-- Everything the spec gives the machine (R36 says there is nothing else). -/
structure State where
  /-- `x[0]` to `x[7]`, the general registers; `x[7]` is the stack pointer (R20, R21). -/
  regs : Vector Byte Config.numRegs
  /-- The program counter (R24). -/
  pc : Byte
  /-- The flags register (R27). -/
  fl : Flag
  /-- The 256 cells of memory (R30). -/
  mem : Memory
  /-- The run state (R31). -/
  runState : RunState
  /-- The fault record's code, two bits (R32). -/
  faultCode : BitVec 2
  /-- The fault record's offending byte (R32). -/
  faultInfo : Byte
  /-- The instruction latches (R34). -/
  latch : Latches
  /-- The console output stream since reset, oldest byte first (R35). -/
  out : List Byte
  deriving DecidableEq, Repr

/-- The state after reset (R37). The latches are unspecified there and never read before a fetch writes them; they start
at 0 here (log entry 2). -/
def State.reset : State where
  regs := #v[Config.gprReset, Config.gprReset, Config.gprReset, Config.gprReset,
             Config.gprReset, Config.gprReset, Config.gprReset, Config.spReset]
  pc := Config.pcReset
  fl := Flag.atReset
  mem := []
  runState := .idle
  faultCode := 0#2
  faultInfo := 0#8
  latch := ⟨0#8, 0#8, 0#8⟩
  out := []

end Sys2Proof.Machine
end

