-- ==== Sys2Proof/Machine/Flags.lean ====
section
/-!
DEFINITION. The flag computation: the three-way unsigned compare of CMP (R152, corrected as R156 orders), the one test the
conditional jumps make, and the bit view of R29.
-/

namespace Sys2Proof.Machine

/-- The outcome of comparing `x` with `y` as unsigned bytes (R152). It is never `NONE` (R27). -/
def compareFlag (x y : Byte) : Flag :=
  if x < y then .lt else if x > y then .gt else .eq

/-- The condition JEQ and JNE test: `fl = EQ` (R28, R191, R192). -/
def Flag.isEq : Flag → Bool
  | .eq   => true
  | .none => false
  | .lt   => false
  | .gt   => false

/-- The three bits `fl[2:0] = {L, G, E}` of R29, where a bit vector is wanted. -/
def Flag.bits : Flag → BitVec 3
  | .none => 0b000#3
  | .eq   => 0b001#3
  | .gt   => 0b010#3
  | .lt   => 0b100#3

end Sys2Proof.Machine
end

