-- ==== Sys2Proof/Machine/Ops.lean ====
section
/-!
DEFINITION. The named operations on the state: memory, registers, `pc`, console, stack, fetch, halting and raising a fault.
They are the pseudocode primitives of R8.
-/

namespace Sys2Proof.Machine

/-- The byte an address holds: the listed one, else what memory holds after reset (R30, R71). -/
def Memory.read (m : Memory) (a : Byte) : Byte :=
  match m with
  | [] => Config.cellReset
  | (k, v) :: rest => if k = a.toNat then v else Memory.read rest a

/-- The cells other than that at address `k`. -/
def Memory.erase (k : Nat) (m : Memory) : Memory := m.filter fun c => c.1 ≠ k

/-- The cells with `(k, v)` put before the first cell of a higher address. -/
def Memory.insert (k : Nat) (v : Byte) (m : Memory) : Memory :=
  match m with
  | [] => [(k, v)]
  | c :: rest => if k < c.1 then (k, v) :: c :: rest else c :: Memory.insert k v rest

/-- The memory with byte `v` at address `a` (R71), kept in its one canonical form: a cell that returns to its reset value
is no longer listed. -/
def Memory.write (m : Memory) (a v : Byte) : Memory :=
  if v = Config.cellReset then Memory.erase a.toNat m
  else Memory.insert a.toNat v (Memory.erase a.toNat m)

/-- The cells are in canonical form from address `lo` up: addresses strictly rising and inside the memory, and no cell
that holds what an unlisted one reads as. -/
def Memory.wfFrom (lo : Nat) (m : Memory) : Bool :=
  match m with
  | [] => true
  | (k, v) :: rest =>
    decide (lo ≤ k) && decide (k < Config.memSize) && decide (v ≠ Config.cellReset) && Memory.wfFrom (k + 1) rest

/-- The memory is in its canonical form. -/
def Memory.wf (m : Memory) : Bool := Memory.wfFrom 0 m

/-- `x[r]` (R8). -/
def readReg (r : Fin Config.numRegs) (s : State) : Byte := s.regs[r]

/-- `x[r] <- v` (R8). No register discards a write or reads as a constant (R20). -/
def writeReg (r : Fin Config.numRegs) (v : Byte) (s : State) : State := { s with regs := s.regs.set r v }

/-- `pc <- target` (R8). -/
def setPc (target : Byte) (s : State) : State := { s with pc := target }

/-- `pc <- (pc + n) mod 256`, the sequential advance (R26, R194). -/
def advancePc (n : Byte) (s : State) : State := setPc (s.pc + n) s

/-- `fl <- f` (R8). -/
def setFl (f : Flag) (s : State) : State := { s with fl := f }

/-- `MemRead(a, 1)` (R71). -/
def memRead (a : Byte) (s : State) : Byte := s.mem.read a

/-- `MemWrite(a, 1, v)` (R71). -/
def memWrite (a v : Byte) (s : State) : State := { s with mem := s.mem.write a v }

/-- `Emit(v)`: one byte on the console port, appended to `OUT` (R56). -/
def emit (v : Byte) (s : State) : State := { s with out := s.out ++ [v] }

/-- The code of a fault (R32, R220 to R222). -/
def Fault.code : Fault → BitVec 2
  | .unknownOpcode _  => 1#2
  | .aluUnsupported   => 2#2
  | .illegalOperand _ => 3#2

/-- The byte a fault records: the offending one, and 0 for `AluUnsupported` (R220 to R222). -/
def Fault.info : Fault → Byte
  | .unknownOpcode opc      => opc
  | .aluUnsupported         => 0#8
  | .illegalOperand operand => operand

/-- `raise F(info)` (R223): the run state and the fault record change, nothing else does. There is no handler, no vector
and nothing saved; nor is there a return from a fault (R228). -/
def raise (f : Fault) (s : State) : State :=
  { s with runState := .faulted, faultCode := f.code, faultInfo := f.info }

/-- `halt` (R193). `pc` is not written. -/
def halt (s : State) : State := { s with runState := .halted }

/-- `Push(v)` (R170): decrement `x[7]`, then write at the new `x[7]`. -/
def push (v : Byte) (s : State) : State :=
  let s' := writeReg Config.spIndex (readReg Config.spIndex s - 1) s
  memWrite (readReg Config.spIndex s') v s'

/-- `Pop()` (R171): read at the old `x[7]`, then increment it. Memory keeps the byte. -/
def pop (s : State) : Byte × State :=
  let sp := readReg Config.spIndex s
  (memRead sp s, writeReg Config.spIndex (sp + 1) s)

/-- The run states in which a step request executes an instruction (R53). -/
def RunState.acceptsStep : RunState → Bool
  | .idle    => true
  | .running => true
  | .halted  => false
  | .faulted => false

/-- A step request in `IDLE` first sets `RUNNING` (R31, R53). -/
def startStep (s : State) : State := { s with runState := .running }

/-- Fetch (R131): the bytes at `pc`, `pc + 1` and `pc + 2`, addresses modulo 256, go to the latches. -/
def fetch (s : State) : State :=
  { s with latch := ⟨memRead s.pc s, memRead (s.pc + 1) s, memRead (s.pc + 2) s⟩ }

/-- The three bytes stored where the next fetch reads them. -/
def placeAtPc (b0 b1 b2 : Byte) (s : State) : State :=
  memWrite (s.pc + 2) b2 (memWrite (s.pc + 1) b1 (memWrite s.pc b0 s))

/-- The same state in a run state whose next step fetches: an ended run is made `RUNNING`. No port does this (R31); it
serves `State.withFetchWord` alone (log entry 5). -/
def madeSteppable (s : State) : State := if s.runState.acceptsStep then s else startStep s

end Sys2Proof.Machine
end

