-- ==== Sys2Proof/Machine/Operands.lean ====
section
/-!
DEFINITION. The one operand form that is checked: a byte used as a register index (R109), and the order of the checks (R226).
The other form, LDI's immediate, is the byte itself (R108).
-/

namespace Sys2Proof.Machine

/-- `RegIdx(b)` (R109): a byte 0 to 7 selects that register; any other raises `IllegalOperand` (R222). -/
def regIdx (b : Byte) : Except Fault (Fin Config.numRegs) :=
  if h : b.toNat < Config.numRegs then .ok ⟨b.toNat, h⟩ else .error (.illegalOperand b)

/-- An instruction with one register operand: the check, then the effect on the whole state or the fault on the unchanged
one. All checks precede all writes (R226). -/
def withReg (opa : Byte) (effect : Fin Config.numRegs → State → State) (s : State) : State :=
  match regIdx opa with
  | .error f => raise f s
  | .ok a    => effect a s

/-- An instruction with two register operands: operand a is checked first, then operand b (R226). -/
def withRegs (opa opb : Byte) (effect : Fin Config.numRegs → Fin Config.numRegs → State → State) (s : State) : State :=
  withReg opa (fun a => withReg opb (effect a)) s

end Sys2Proof.Machine
end

