-- ==== Sys2Proof/Machine/Alu.lean ====
section
/-!
DEFINITION. The ALU (R150) and the meanings of MUL and CMP (spec file 41_alu.md). The adder no opcode reaches has no
semantics and is left out, as R153 directs.
-/

namespace Sys2Proof.Machine

/-- The operations the ALU is ever asked for (R150, R154). -/
inductive AluOp where
  /-- Selected by MUL. -/
  | multiply
  /-- Selected by CMP. -/
  | compare
  deriving DecidableEq, Repr

/-- The exact unsigned product of two bytes, which fits 16 bits (R151). -/
def product (x y : Byte) : BitVec 16 := x.zeroExtend 16 * y.zeroExtend 16

/-- `p[7:0]` of the product (R151): multiplication modulo 256. -/
def mulLow (x y : Byte) : Byte := (product x y).extractLsb' 0 8

/-- The ALU's contract (R150): read `x[a]` and `x[b]`, write `x[a]` or `fl`. -/
def alu (op : AluOp) (a b : Fin Config.numRegs) (s : State) : State :=
  match op with
  | .multiply => writeReg a (mulLow (readReg a s) (readReg b s)) s
  | .compare  => setFl (compareFlag (readReg a s) (readReg b s)) s

/-- MUL (R151): multiply, then `pc <- pc + 3`. -/
def execMul (opa opb : Byte) (s : State) : Host.Outcome State Fault Refusal :=
  .next (withRegs opa opb (fun a b s => advancePc 3 (alu .multiply a b s)) s)

/-- CMP (R152): compare, then `pc <- pc + 3`. -/
def execCmp (opa opb : Byte) (s : State) : Host.Outcome State Fault Refusal :=
  .next (withRegs opa opb (fun a b s => advancePc 3 (alu .compare a b s)) s)

end Sys2Proof.Machine
end

