-- ==== Sys2Proof/Machine/Control.lean ====
section
/-!
DEFINITION. The meanings of JMP, JEQ, JNE and HLT (spec file 43_control_flow.md).
-/

namespace Sys2Proof.Machine

/-- `pc <- x[a]` where the jump is taken, else `pc <- pc + 2` (R194). -/
def jumpIf (taken : Bool) (a : Fin Config.numRegs) (s : State) : State :=
  if taken then setPc (readReg a s) s else advancePc 2 s

/-- JMP (R190): `a = RegIdx(opa); pc <- x[a]`. -/
def execJmp (opa : Byte) (s : State) : Host.Outcome State Fault Refusal :=
  .next (withReg opa (jumpIf true) s)

/-- JEQ (R191): jump where `fl = EQ`. The operand is checked whether or not the jump is taken. -/
def execJeq (opa : Byte) (s : State) : Host.Outcome State Fault Refusal :=
  .next (withReg opa (jumpIf s.fl.isEq) s)

/-- JNE (R192): jump where `fl` is not `EQ`. The operand is checked whether or not the jump is taken. -/
def execJne (opa : Byte) (s : State) : Host.Outcome State Fault Refusal :=
  .next (withReg opa (jumpIf (!s.fl.isEq)) s)

/-- HLT (R193): `halt`. -/
def execHlt (s : State) : Host.Outcome State Fault Refusal := .next (halt s)

end Sys2Proof.Machine
end

