-- ==== Sys2Proof/Machine/LoadPrint.lean ====
section
/-!
DEFINITION. The meanings of LDI and PRN (spec file 44_load_and_print.md).
-/

namespace Sys2Proof.Machine

/-- LDI (R210): `a = RegIdx(opa); x[a] <- opb; pc <- pc + 3`. -/
def execLdi (opa imm : Byte) (s : State) : Host.Outcome State Fault Refusal :=
  .next (withReg opa (fun a s => advancePc 3 (writeReg a imm s)) s)

/-- PRN (R211): `a = RegIdx(opa); Emit(x[a]); pc <- pc + 2`. -/
def execPrn (opa : Byte) (s : State) : Host.Outcome State Fault Refusal :=
  .next (withReg opa (fun a s => advancePc 2 (emit (readReg a s) s)) s)

end Sys2Proof.Machine
end

