-- ==== Sys2Proof/Machine/Stack.lean ====
section
/-!
DEFINITION. The meanings of PUSH, POP, CALL and RET (spec file 42_stack.md).
-/

namespace Sys2Proof.Machine

/-- PUSH (R172): `a = RegIdx(opa); v = x[a]; Push(v); pc <- pc + 2`. The value is read before `x[7]` is decremented. -/
def execPush (opa : Byte) (s : State) : Host.Outcome State Fault Refusal :=
  .next (withReg opa (fun a s => advancePc 2 (push (readReg a s) s)) s)

/-- POP (R173): `a = RegIdx(opa); v = Pop(); x[a] <- v; pc <- pc + 2`. The register is written after `x[7]` is
incremented. -/
def execPop (opa : Byte) (s : State) : Host.Outcome State Fault Refusal :=
  .next (withReg opa (fun a s => advancePc 2 (writeReg a (pop s).1 (pop s).2)) s)

/-- Push the return address `pc + 2`, then take the target from `x[a]` as the push left it (R174). -/
def callThrough (a : Fin Config.numRegs) (s : State) : State :=
  let s' := push (s.pc + 2) s
  setPc (readReg a s') s'

/-- CALL (R174): `a = RegIdx(opa); Push(pc + 2); pc <- x[a]`. -/
def execCall (opa : Byte) (s : State) : Host.Outcome State Fault Refusal :=
  .next (withReg opa callThrough s)

/-- RET (R175): `pc <- Pop()`. -/
def execRet (s : State) : Host.Outcome State Fault Refusal :=
  .next (setPc (pop s).1 (pop s).2)

end Sys2Proof.Machine
end

