-- ==== Sys2Proof/Machine/Dispatch.lean ====
section
/-!
DEFINITION. Execute (R134): each instruction's own rule, and nothing added after it.
-/

namespace Sys2Proof.Machine

def exec (i : Instr) (s : State) : Host.Outcome State Fault Refusal :=
  match i with
  | .ldi opa imm => Sys2Proof.Machine.execLdi opa imm s
  | .hlt => Sys2Proof.Machine.execHlt s
  | .prn opa => Sys2Proof.Machine.execPrn opa s
  | .mul opa opb => Sys2Proof.Machine.execMul opa opb s
  | .pop opa => Sys2Proof.Machine.execPop opa s
  | .push opa => Sys2Proof.Machine.execPush opa s
  | .call opa => Sys2Proof.Machine.execCall opa s
  | .ret => Sys2Proof.Machine.execRet s
  | .cmp opa opb => Sys2Proof.Machine.execCmp opa opb s
  | .jmp opa => Sys2Proof.Machine.execJmp opa s
  | .jne opa => Sys2Proof.Machine.execJne opa s
  | .jeq opa => Sys2Proof.Machine.execJeq opa s

end Sys2Proof.Machine
end

