-- ==== Sys2Proof/Machine/Step.lean ====
section
/-!
DEFINITION. One step (R130) and the host's placing of an instruction where the next step fetches it.
-/

namespace Sys2Proof.Machine

/-- Decode the latched bytes and execute; an opcode byte with no row raises `UnknownOpcode` (R132, R134, R135). -/
def dispatchLatched (s : State) : Host.Outcome State Fault Refusal :=
  match decode s.latch.opc s.latch.opa s.latch.opb with
  | .ok i => exec i s
  | .error (.unknownOpcode opc) => .next (raise (.unknownOpcode opc) s)

/-- A step request (R53, R130): fetch, decode and execute in `IDLE` or `RUNNING`; no change in `HALTED` or `FAULTED`. -/
def step (s : State) : Host.Outcome State Fault Refusal :=
  if s.runState.acceptsStep then dispatchLatched (fetch (startStep s)) else .next s

/-- The state with an instruction's three bytes stored at `pc`, `pc + 1` and `pc + 2`, so that the very next step fetches
and runs it (log entry 5). -/
def State.withFetchWord (s : State) (nbits w : Nat) : State :=
  madeSteppable (placeAtPc (tableByte nbits w 0) (tableByte nbits w 1) (tableByte nbits w 2) s)

end Sys2Proof.Machine
end

