-- ==== Sys2Proof/Machine/Ports.lean ====
section
/-!
DEFINITION. The host's side of the core: the ports of R50 (spec file 15_interfaces.md). The step port is `step`; the run port
is repeated step requests (`Host.Core.run`, R53, R136).
-/

namespace Sys2Proof.Machine

/-- The reset port (R51): the reset state, whatever the state was. -/
def resetPort (_s : State) : State := State.reset

/-- The load port (R52): one byte to memory while `IDLE`; ignored in any other run state. -/
def loadPort (addr data : Byte) (s : State) : State :=
  match s.runState with
  | .idle => memWrite addr data s
  | .running => s
  | .halted => s
  | .faulted => s

/-- Load the bytes at `addr`, `addr + 1`, … in order (R52). -/
def loadFrom (addr : Byte) (image : List Byte) (s : State) : State :=
  match image with
  | [] => s
  | b :: rest => loadFrom (addr + 1) rest (loadPort addr b s)

/-- Load a program image at `LOAD_BASE` (R52, R251). The host has no move for an image longer than memory (R60; log entry 7). -/
def loadImage (image : List Byte) (s : State) : Option State :=
  if image.length ≤ Config.memSize then some (loadFrom Config.loadBase image s) else none

/-- The two-bit code of the run state on the status port (R54). -/
def RunState.code : RunState → BitVec 2
  | .idle    => 0#2
  | .running => 1#2
  | .halted  => 2#2
  | .faulted => 3#2

/-- What the status port shows (R54). -/
structure Status where
  /-- The run state's code. -/
  runState : BitVec 2
  /-- The fault record's code. -/
  faultCode : BitVec 2
  /-- The fault record's byte. -/
  faultInfo : Byte
  deriving DecidableEq, Repr

/-- The status port (R54). -/
def status (s : State) : Status := ⟨s.runState.code, s.faultCode, s.faultInfo⟩

/-- The exit status of a run that has ended (R55): 0 for `HALTED`, the fault code for `FAULTED`; a run that has not ended
has none (log entry 16). -/
def exitStatus (s : State) : Option Nat :=
  match s.runState with
  | .idle    => none
  | .running => none
  | .halted  => some 0
  | .faulted => some s.faultCode.toNat

/-- What the debug port shows (R58): the document's own list. -/
structure DebugView where
  /-- The program counter. -/
  pc : Byte
  /-- The byte at `pc`. -/
  byte0 : Byte
  /-- The byte at `pc + 1`. -/
  byte1 : Byte
  /-- The byte at `pc + 2`. -/
  byte2 : Byte
  /-- `x[0]` to `x[7]`. -/
  regs : Vector Byte Config.numRegs
  deriving DecidableEq, Repr

/-- The debug port (R58): a view, which changes nothing (log entry 10). -/
def debugView (s : State) : DebugView :=
  ⟨s.pc, memRead s.pc s, memRead (s.pc + 1) s, memRead (s.pc + 2) s, s.regs⟩

/-- How the console renders one byte (R57): its decimal numeral and one newline. -/
def renderByte (v : Byte) : List Char := Nat.toDigits 10 v.toNat ++ ['\n']

/-- The text of a console stream (R57): the renderings in emission order. -/
def renderOut (out : List Byte) : List Char :=
  match out with
  | [] => []
  | v :: rest => renderByte v ++ renderOut rest

/-- The port transactions that change state (R50, R60). Status and debug are views; run is a sequence of steps. -/
inductive HostMove where
  /-- A transaction on the reset port. -/
  | reset
  /-- A transaction on the load port. -/
  | load (addr data : Byte)
  /-- A transaction on the step port. -/
  | step
  deriving DecidableEq, Repr

/-- The effect of one port transaction; each is one transition (R50). -/
def hostMove (m : HostMove) (s : State) : Host.Outcome State Fault Refusal :=
  match m with
  | .reset          => .next (resetPort s)
  | .load addr data => .next (loadPort addr data s)
  | .step           => Sys2Proof.Machine.step s

end Sys2Proof.Machine
end

