-- ==== Sys2Proof/Machine/Loader.lean ====
section
/-!
DEFINITION. The program file format (R116), read as a list of lines. The loader stands outside the core (R4): this gives the
bytes a file stands for, and the load port puts them into memory.
-/

namespace Sys2Proof.Machine

/-- What one line of a program file gives. -/
inductive LineResult where
  /-- Nothing but white space and comment: the line takes no address. -/
  | blank
  /-- One instruction byte. -/
  | byte (b : Byte)
  /-- No base-2 numeral: a loader error (R116, R225). -/
  | malformed
  /-- A base-2 numeral that does not have eight digits, of which the spec decides nothing (log entry 8). -/
  | undecided
  deriving DecidableEq, Repr

/-- What a program file gives. -/
inductive FileResult where
  /-- The program image. -/
  | image (bytes : List Byte)
  /-- A loader error: fatal, reported before the core is started (R225). -/
  | loaderError
  /-- A line of which the spec decides nothing. -/
  | undecided
  deriving DecidableEq, Repr

/-- The line up to its comment. -/
def stripComment (line : List Char) : List Char := line.takeWhile fun c => c ≠ '#'

/-- The text without white space at either end. -/
def trimLine (line : List Char) : List Char :=
  ((line.dropWhile Char.isWhitespace).reverse.dropWhile Char.isWhitespace).reverse

/-- `0` and `1`, the digits of a base-2 numeral. -/
def isBinaryDigit (c : Char) : Bool := c == '0' || c == '1'

/-- The value of a base-2 numeral, most significant digit first (R7). -/
def binaryValue (digits : List Char) : Nat :=
  digits.foldl (fun n c => 2 * n + (if c = '1' then 1 else 0)) 0

/-- Read one line (R116). -/
def readLine (line : List Char) : LineResult :=
  let text := trimLine (stripComment line)
  if text = [] then .blank
  else if text.all isBinaryDigit then
    if text.length = 8 then .byte (BitVec.ofNat 8 (binaryValue text)) else .undecided
  else .malformed

/-- Read a program file: the bytes of its lines in order (R116). -/
def readProgramFile (lines : List (List Char)) : FileResult :=
  match lines with
  | [] => .image []
  | line :: rest =>
    match readLine line with
    | .blank     => readProgramFile rest
    | .malformed => .loaderError
    | .undecided => .undecided
    | .byte b =>
      match readProgramFile rest with
      | .image bytes => .image (b :: bytes)
      | .loaderError => .loaderError
      | .undecided   => .undecided

end Sys2Proof.Machine
end

