-- ==== Sys2Proof/Safety.lean ====
section
/-!
DEFINITION. What counts as a good state, a finished run and a successful one, and the tables of the spec that statements
compare the machine with.
-/

namespace Sys2Proof.Machine

/-- The twelve legal opcode bytes in rising order, as R106 lists them. -/
def legalOpcodes : List Byte :=
  [0x01#8, 0x11#8, 0x45#8, 0x46#8, 0x47#8, 0x50#8, 0x54#8, 0x55#8, 0x56#8, 0x82#8, 0xA2#8, 0xA7#8]

/-- The state is the end of a run (R138). -/
def State.final (s : State) : Bool := !s.runState.acceptsStep

/-- The fault a state stands in, named by its code (R229): the fault outcome of the run, which no step clears. -/
def State.faultOutcome (s : State) : Option Fault :=
  match s.runState, s.faultCode with
  | .faulted, 1#2 => some (.unknownOpcode s.faultInfo)
  | .faulted, 2#2 => some .aluUnsupported
  | .faulted, 3#2 => some (.illegalOperand s.faultInfo)
  | _, _ => none

/-- A run that ended well: `HALTED` with fault code 0, the only successful end (R229). -/
def State.succeeded (s : State) : Bool := decide (s.runState = .halted) && decide (s.faultCode = 0#2)

/-- A run from `s` ends in `t` (R136, R138): some number of step requests leads to the final state `t`. -/
def RunEnds (s t : State) : Prop := ∃ k, Host.Core.run Sys2Proof.core k s = .next t ∧ t.final = true

/-- The states that reset and any sequence of port transactions lead to (R50, R60). -/
inductive Reachable : State → Prop where
  /-- Reset gives the first state. -/
  | start : Reachable State.reset
  /-- A port transaction leads on. -/
  | move {s t : State} (m : HostMove) (before : Reachable s) (moved : hostMove m s = .next t) : Reachable t

/-- The state of `s` with a fault recorded and nothing else changed (R223), written out field by field. -/
def faultRecorded (code : BitVec 2) (info : Byte) (s : State) : State :=
  { s with runState := .faulted, faultCode := code, faultInfo := info }

/-- The state in which an instruction executes in a step from `s`: `RUNNING`, with the three bytes at `pc`, `pc + 1` and
`pc + 2` latched and nothing else changed (R130, R131, R34, R53). -/
def fetched (s : State) : State :=
  { s with runState := .running, latch := ⟨s.mem.read s.pc, s.mem.read (s.pc + 1), s.mem.read (s.pc + 2)⟩ }

/-- A step request executes an instruction in `s` (R53). -/
def canStep (s : State) : Prop := s.runState = .idle ∨ s.runState = .running

/-- The bytes at `pc` decode to `i` (R130). -/
def fetchesInstr (s : State) (i : Instr) : Prop :=
  decode (s.mem.read s.pc) (s.mem.read (s.pc + 1)) (s.mem.read (s.pc + 2)) = .ok i

/-- What R31, R32 and R220 to R223 make true of every state of the machine, with two clauses that rest on the model's own
choices: the form of the memory list (log entry 4) and the latches at reset (log entry 2). -/
structure Inv (s : State) : Prop where
  /-- Memory is in its canonical form: cells of the 256 addresses, rising, none listed that reads as an unlisted one.
  The form is the model's choice (log entry 4). -/
  memCanonical : s.mem.wf = true
  /-- The fault code is non-zero exactly in `FAULTED`. -/
  codeIffFaulted : s.faultCode ≠ 0#2 ↔ s.runState = .faulted
  /-- Without a fault the recorded byte is 0. -/
  infoClear : s.faultCode = 0#2 → s.faultInfo = 0#8
  /-- `AluUnsupported` is never recorded (R154). -/
  neverAluUnsupported : s.faultCode ≠ 2#2
  /-- After `UnknownOpcode`, the recorded byte is no opcode and still stands at `pc` (R135). -/
  unknownOpcode : s.faultCode = 1#2 → s.faultInfo ∉ legalOpcodes ∧ s.mem.read s.pc = s.faultInfo
  /-- After `IllegalOperand`, the recorded byte names no register and still stands behind an opcode at `pc` (R222, R223). -/
  illegalOperand : s.faultCode = 3#2 →
    7 < s.faultInfo.toNat ∧ s.mem.read s.pc ∈ legalOpcodes ∧
      (s.mem.read (s.pc + 1) = s.faultInfo ∨ s.mem.read (s.pc + 2) = s.faultInfo)
  /-- Until the first step only memory differs from the reset state (R52, R59). For the latches, to which R37 gives no reset
  value, this is the model's choice (log entry 2). -/
  idleAsReset : s.runState = .idle → s = { State.reset with mem := s.mem }

/-- R22's table of the registers an instruction writes. -/
def mayWriteReg (i : Instr) (r : Fin Config.numRegs) : Bool :=
  match i with
  | .ldi opa _ => decide (opa.toNat = r.val)
  | .hlt       => false
  | .prn _     => false
  | .mul opa _ => decide (opa.toNat = r.val)
  | .pop opa   => decide (r = Config.spIndex) || decide (opa.toNat = r.val)
  | .push _    => decide (r = Config.spIndex)
  | .call _    => decide (r = Config.spIndex)
  | .ret       => decide (r = Config.spIndex)
  | .cmp _ _   => false
  | .jmp _     => false
  | .jne _     => false
  | .jeq _     => false

/-- The two instructions that store to memory while they run (R72). -/
def storesToMemory (i : Instr) : Bool :=
  match i with
  | .ldi _ _ => false
  | .hlt     => false
  | .prn _   => false
  | .mul _ _ => false
  | .pop _   => false
  | .push _  => true
  | .call _  => true
  | .ret     => false
  | .cmp _ _ => false
  | .jmp _   => false
  | .jne _   => false
  | .jeq _   => false

/-- The address a push stores to: `x[7]` after the decrement (R170, R212). -/
def pushAddress (s : State) : Byte := s.regs[7] - 1

/-- The register an operand byte 0 to 7 names, as it stands in `s`; 0 for a byte that names none. -/
def operandValue (opa : Byte) (s : State) : Byte :=
  if h : opa.toNat < 8 then s.regs[opa.toNat] else 0#8

/-- R109, R222, R226: the operand byte for which an instruction raises `IllegalOperand`, the first in the order operand a,
operand b; `none` where every register operand is legal. -/
def firstIllegalOperand (i : Instr) : Option Byte :=
  let one (opa : Byte) : Option Byte := if 7 < opa.toNat then some opa else none
  match i with
  | .ldi opa _   => one opa
  | .hlt         => none
  | .prn opa     => one opa
  | .mul opa opb => (one opa).or (one opb)
  | .pop opa     => one opa
  | .push opa    => one opa
  | .call opa    => one opa
  | .ret         => none
  | .cmp opa opb => (one opa).or (one opb)
  | .jmp opa     => one opa
  | .jne opa     => one opa
  | .jeq opa     => one opa

/-- R194's table: `pc` after an instruction that does not fault. CALL reads its register after the push. -/
def pcAfter (i : Instr) (s : State) : Byte :=
  match i with
  | .ldi _ _  => s.pc + 3
  | .mul _ _  => s.pc + 3
  | .cmp _ _  => s.pc + 3
  | .prn _    => s.pc + 2
  | .push _   => s.pc + 2
  | .pop _    => s.pc + 2
  | .jmp opa  => operandValue opa s
  | .jeq opa  => if s.fl = .eq then operandValue opa s else s.pc + 2
  | .jne opa  => if s.fl ≠ .eq then operandValue opa s else s.pc + 2
  | .call opa => if opa.toNat = 7 then pushAddress s else operandValue opa s
  | .ret      => s.mem.read s.regs[7]
  | .hlt      => s.pc

/-- A line of a program file in the form R116 gives it: spaces, the numeral of one byte or none, spaces, a comment or none. -/
structure FileLine where
  /-- Spaces before the numeral. -/
  indent : Nat
  /-- The byte the line stands for; `none` on a blank or comment line. -/
  byte : Option Byte
  /-- Spaces behind the numeral. -/
  gap : Nat
  /-- The text behind `#`. -/
  comment : Option (List Char)
  deriving DecidableEq, Repr

/-- The eight binary digits of a byte, most significant first (R7). -/
def binaryNumeral (b : Byte) : List Char := (List.range 8).map fun k => if b.getMsbD k then '1' else '0'

/-- The characters of the line. -/
def FileLine.text (l : FileLine) : List Char :=
  List.replicate l.indent ' ' ++ l.byte.elim [] binaryNumeral ++ List.replicate l.gap ' ' ++
    l.comment.elim [] fun c => '#' :: c

/-- R226: the fault a step on these three bytes reports, first match first; `none` where it reports none. -/
def firstFault (opc opa opb : Byte) : Option (BitVec 2 × Byte) :=
  if opc ∉ legalOpcodes then some (1#2, opc)
  else if opc ≠ 0x01#8 ∧ opc ≠ 0x11#8 ∧ 7 < opa.toNat then some (3#2, opa)
  else if (opc = 0xA2#8 ∨ opc = 0xA7#8) ∧ 7 < opb.toNat then some (3#2, opb)
  else none

end Sys2Proof.Machine
end

