-- ==== Sys2Proof/Certificates/Slice0/Obligations.lean ====
section
/-!
DEFINITION. The statements for the provers, each from the rules of spec/ its docstring cites. A next state is written out as
a record update, so that an equation also says everything the instruction leaves alone.
-/

open Sys2Proof Sys2Proof.Machine

/-! ### Encoding (spec file 30_encoding.md) -/

/-- R100 to R106, R110: three fetched bytes that begin with the encoding of an instruction decode to that instruction,
with every operand at every value, whatever the bytes it does not use. -/
def Obligations.DecodeReadsBackEncode : Prop :=
  ∀ (i : Instr) (opc opa opb : Byte), encode i <+: [opc, opa, opb] → decode opc opa opb = .ok i

/-- R100 to R106: what decodes to an instruction begins with the encoding of that instruction. -/
def Obligations.EncodeReadsBackDecode : Prop :=
  ∀ (i : Instr) (opc opa opb : Byte), decode opc opa opb = .ok i → encode i <+: [opc, opa, opb]

/-- R105, R111, R132: the opcode byte alone decides whether three bytes decode and how long the instruction is; a byte
outside the twelve is rejected by name and has no length. -/
def Obligations.OpcodeByteAloneDecides : Prop :=
  ∀ opc opa opb : Byte,
    (opc ∈ legalOpcodes →
      ∃ i, decode opc opa opb = .ok i ∧ opcodeLength opc = some (encode i).length) ∧
    (opc ∉ legalOpcodes → decode opc opa opb = .error (.unknownOpcode opc) ∧ opcodeLength opc = none)

/-- R106: words written out from the catalogue decode to the instructions they stand for (a sanity statement). -/
def Obligations.CatalogueWordsDecode : Prop :=
  decode 0b10000010#8 0b00000011#8 0b11001000#8 = .ok (.ldi 3#8 200#8) ∧
  decode 0b10100010#8 0b00000000#8 0b00000001#8 = .ok (.mul 0#8 1#8) ∧
  decode 0b10100111#8 0b00000010#8 0b00000000#8 = .ok (.cmp 2#8 0#8) ∧
  decode 0b01000101#8 0b00000111#8 0b00000000#8 = .ok (.push 7#8) ∧
  decode 0b00010001#8 0b00000000#8 0b00000000#8 = .ok .ret ∧
  decode 0b01010101#8 0b00000010#8 0b00000000#8 = .ok (.jeq 2#8) ∧
  decode 0b00000001#8 0b00000000#8 0b00000000#8 = .ok .hlt ∧
  decode 0b10100000#8 0b00000000#8 0b00000001#8 = .error (.unknownOpcode 160#8)

/-- R107 (marked 'derived' there): bits 7:6 of every opcode are the number of operand bytes, bit 5 marks the two ALU
instructions, and bit 4 the five that write an absolute `pc`. -/
def Obligations.OpcodeBitRegularities : Prop :=
  ∀ (i : Instr) (opc : Byte) (operands : List Byte), encode i = opc :: operands →
    (opc.extractLsb' 6 2).toNat = operands.length ∧
    (opc.getLsbD 5 = true ↔ ∃ opa opb, i = .mul opa opb ∨ i = .cmp opa opb) ∧
    (opc.getLsbD 4 = true ↔ i = .ret ∨ ∃ opa, i = .call opa ∨ i = .jmp opa ∨ i = .jne opa ∨ i = .jeq opa)

/-! ### Reset and the step (spec files 10_state.md, 40_dispatcher.md, 70_reset_and_hazards.md) -/

/-- R37: every value the reset table gives (x[0] to x[6] and fl by the spec's decisions D3 and D4, the run state and the
fault record by D13 and D10). The latches, which the table leaves unspecified, are not named. -/
def Obligations.ResetValues : Prop :=
  (∀ r : Fin 8, State.reset.regs[r] = if r = 7 then 255#8 else 0#8) ∧
  State.reset.pc = 0#8 ∧ State.reset.fl = .none ∧ (∀ a : Byte, State.reset.mem.read a = 0#8) ∧
  State.reset.runState = .idle ∧ State.reset.faultCode = 0#2 ∧ State.reset.faultInfo = 0#8 ∧
  State.reset.out = []

/-- R37, R32: the reset state meets the invariant of the machine's states. That memory is in canonical form is a clause about
the model's own data, the model's choice (log entry 4). -/
def Obligations.ResetMeetsInv : Prop := Inv State.reset

/-- R250 (marked 'derived' there): stepped at once after reset, the core stops with `UnknownOpcode(0x00)` at address 0.
That the fault is what the state names is the model's reading (log entry 1), and that a memory of zeros is the empty list is
the model's choice (log entry 4). -/
def Obligations.StepAtResetStopsOnZeroByte : Prop :=
  ∃ t, step State.reset = .next t ∧ t.faultOutcome = some (.unknownOpcode 0#8) ∧ t.pc = 0#8 ∧
    t.regs = State.reset.regs ∧ t.fl = .none ∧ t.mem = [] ∧ t.out = []

/-- R130, R131, R134, R53: where the bytes at `pc` decode to an instruction, a step is that instruction's rule, performed
on the state with the run state `RUNNING` and the three bytes latched; nothing is added after it.That the state keeps the
latches is the model's choice (R34, log entry 2). -/
def Obligations.StepRunsDecodedInstruction : Prop :=
  ∀ (s : State) (i : Instr), canStep s → fetchesInstr s i → step s = exec i (fetched s)

/-- R135, R220: where the byte at `pc` is none of the twelve opcodes, the step records `UnknownOpcode` with that byte and
changes nothing else (that `pc` stays is marked 'derived' in R135). That the latches keep the fetched bytes after the step is
no part of R135 but the model's choice (log entry 2). -/
def Obligations.UnknownOpcodeStopsTheCore : Prop :=
  ∀ s : State, canStep s → s.mem.read s.pc ∉ legalOpcodes →
    step s = .next { fetched s with runState := .faulted, faultCode := 1#2, faultInfo := s.mem.read s.pc }

/-- R130: a step is total: every state, in every run state, has a next state, and no step answers a fault or a refusal of
the model's own (faults are states, log entry 1). -/
def Obligations.EveryStepAnswersNextState : Prop :=
  ∀ s : State, ∃ t, step s = .next t ∧ t.runState ≠ .idle

/-- R53, R138: in `HALTED` and `FAULTED` any number of step requests changes nothing. -/
def Obligations.FinalStatesNeverChange : Prop :=
  ∀ (s : State) (k : Nat), s.runState = .halted ∨ s.runState = .faulted →
    Host.Core.run Sys2Proof.core k s = .next s

/-- R34: a step latches the three bytes at the old `pc`, and what an earlier step left in the latches has no effect on it
(that the latches are kept between steps is the model's choice, log entry 2). -/
def Obligations.StepIgnoresOldLatches : Prop :=
  ∀ (s t : State) (old : Latches), canStep s → step s = .next t →
    t.latch = (fetched s).latch ∧ step { s with latch := old } = .next t

/-- R35: the console stream is append-only and never read by the core: a step appends the same bytes to any stream, and
does the same otherwise. -/
def Obligations.StepNeverReadsOutput : Prop :=
  ∀ (s t : State) (o : List Byte), step s = .next t →
    ∃ emitted, emitted.length ≤ 1 ∧ t.out = s.out ++ emitted ∧
      step { s with out := o } = .next { t with out := o ++ emitted }

/-! ### The twelve instructions -/

/-- R210: LDI. -/
def Obligations.LdiLoadsImmediate : Prop :=
  ∀ (opa imm : Byte) (s : State),
    encode (.ldi opa imm) = [0b10000010#8, opa, imm] ∧
    (∀ a : Fin 8, opa.toNat = a.val →
      exec (.ldi opa imm) s = .next { s with regs := s.regs.set a imm, pc := s.pc + 3 }) ∧
    (7 < opa.toNat → exec (.ldi opa imm) s = .next (faultRecorded 3#2 opa s))

/-- R211: PRN. -/
def Obligations.PrnEmitsRegister : Prop :=
  ∀ (opa : Byte) (s : State),
    encode (.prn opa) = [0b01000111#8, opa] ∧
    (∀ a : Fin 8, opa.toNat = a.val →
      exec (.prn opa) s = .next { s with out := s.out ++ [s.regs[a]], pc := s.pc + 2 }) ∧
    (7 < opa.toNat → exec (.prn opa) s = .next (faultRecorded 3#2 opa s))

/-- R151: MUL keeps the low eight bits of the exact product. -/
def Obligations.MulKeepsLowByteOfProduct : Prop :=
  ∀ (opa opb : Byte) (s : State),
    encode (.mul opa opb) = [0b10100010#8, opa, opb] ∧
    (∀ a b : Fin 8, opa.toNat = a.val → opb.toNat = b.val →
      ∃ v : Byte, v.toNat = s.regs[a].toNat * s.regs[b].toNat % 256 ∧
        exec (.mul opa opb) s = .next { s with regs := s.regs.set a v, pc := s.pc + 3 }) ∧
    (7 < opa.toNat → exec (.mul opa opb) s = .next (faultRecorded 3#2 opa s)) ∧
    (opa.toNat ≤ 7 → 7 < opb.toNat → exec (.mul opa opb) s = .next (faultRecorded 3#2 opb s))

/-- R152, R156: CMP compares unsigned, three ways, with the corrected greater-than case. -/
def Obligations.CmpComparesThreeWays : Prop :=
  ∀ (opa opb : Byte) (s : State),
    encode (.cmp opa opb) = [0b10100111#8, opa, opb] ∧
    (∀ a b : Fin 8, opa.toNat = a.val → opb.toNat = b.val →
      (s.regs[a].toNat < s.regs[b].toNat → exec (.cmp opa opb) s = .next { s with fl := .lt, pc := s.pc + 3 }) ∧
      (s.regs[a].toNat > s.regs[b].toNat → exec (.cmp opa opb) s = .next { s with fl := .gt, pc := s.pc + 3 }) ∧
      (s.regs[a].toNat = s.regs[b].toNat → exec (.cmp opa opb) s = .next { s with fl := .eq, pc := s.pc + 3 })) ∧
    (7 < opa.toNat → exec (.cmp opa opb) s = .next (faultRecorded 3#2 opa s)) ∧
    (opa.toNat ≤ 7 → 7 < opb.toNat → exec (.cmp opa opb) s = .next (faultRecorded 3#2 opb s))

/-- R172 with R170: PUSH stores the register, read before the decrement, at the decremented stack pointer. -/
def Obligations.PushStoresRegister : Prop :=
  ∀ (opa : Byte) (s : State),
    encode (.push opa) = [0b01000101#8, opa] ∧
    (∀ a : Fin 8, opa.toNat = a.val →
      ∃ m : Memory, exec (.push opa) s =
          .next { s with regs := s.regs.set 7 (s.regs[7] - 1), mem := m, pc := s.pc + 2 } ∧
        ∀ x : Byte, m.read x = if x = s.regs[7] - 1 then s.regs[a] else s.mem.read x) ∧
    (7 < opa.toNat → exec (.push opa) s = .next (faultRecorded 3#2 opa s))

/-- R173 with R171: POP reads at the stack pointer, increments it, then writes the register. -/
def Obligations.PopLoadsRegister : Prop :=
  ∀ (opa : Byte) (s : State),
    encode (.pop opa) = [0b01000110#8, opa] ∧
    (∀ a : Fin 8, opa.toNat = a.val →
      exec (.pop opa) s =
        .next { s with regs := (s.regs.set 7 (s.regs[7] + 1)).set a (s.mem.read s.regs[7]), pc := s.pc + 2 }) ∧
    (7 < opa.toNat → exec (.pop opa) s = .next (faultRecorded 3#2 opa s))

/-- R174 with R170: CALL pushes the address after itself, then jumps to the register as the push left it. -/
def Obligations.CallPushesReturnAddress : Prop :=
  ∀ (opa : Byte) (s : State),
    encode (.call opa) = [0b01010000#8, opa] ∧
    (∀ a : Fin 8, opa.toNat = a.val →
      ∃ m : Memory, exec (.call opa) s =
          .next { s with
            regs := s.regs.set 7 (s.regs[7] - 1), mem := m,
            pc := if a = 7 then s.regs[7] - 1 else s.regs[a] } ∧
        ∀ x : Byte, m.read x = if x = s.regs[7] - 1 then s.pc + 2 else s.mem.read x) ∧
    (7 < opa.toNat → exec (.call opa) s = .next (faultRecorded 3#2 opa s))

/-- R175 with R171: RET pops the byte at the stack pointer into `pc`. -/
def Obligations.RetPopsProgramCounter : Prop :=
  encode .ret = [0b00010001#8] ∧
  ∀ s : State, exec .ret s =
    .next { s with regs := s.regs.set 7 (s.regs[7] + 1), pc := s.mem.read s.regs[7] }

/-- R190: JMP. -/
def Obligations.JmpGoesToRegister : Prop :=
  ∀ (opa : Byte) (s : State),
    encode (.jmp opa) = [0b01010100#8, opa] ∧
    (∀ a : Fin 8, opa.toNat = a.val → exec (.jmp opa) s = .next { s with pc := s.regs[a] }) ∧
    (7 < opa.toNat → exec (.jmp opa) s = .next (faultRecorded 3#2 opa s))

/-- R191: JEQ, the operand checked whether or not the jump is taken. -/
def Obligations.JeqJumpsOnEqual : Prop :=
  ∀ (opa : Byte) (s : State),
    encode (.jeq opa) = [0b01010101#8, opa] ∧
    (∀ a : Fin 8, opa.toNat = a.val →
      (s.fl = .eq → exec (.jeq opa) s = .next { s with pc := s.regs[a] }) ∧
      (s.fl ≠ .eq → exec (.jeq opa) s = .next { s with pc := s.pc + 2 })) ∧
    (7 < opa.toNat → exec (.jeq opa) s = .next (faultRecorded 3#2 opa s))

/-- R192: JNE, the operand checked whether or not the jump is taken. -/
def Obligations.JneJumpsOnNotEqual : Prop :=
  ∀ (opa : Byte) (s : State),
    encode (.jne opa) = [0b01010110#8, opa] ∧
    (∀ a : Fin 8, opa.toNat = a.val →
      (s.fl ≠ .eq → exec (.jne opa) s = .next { s with pc := s.regs[a] }) ∧
      (s.fl = .eq → exec (.jne opa) s = .next { s with pc := s.pc + 2 })) ∧
    (7 < opa.toNat → exec (.jne opa) s = .next (faultRecorded 3#2 opa s))

/-- R193: HLT changes the run state alone (`pc` stays on the HLT byte by the spec's decision D12), the exit status is 0, and
no later step changes anything. -/
def Obligations.HltEndsTheRun : Prop :=
  encode .hlt = [0b00000001#8] ∧
  ∀ s : State, exec .hlt s = .next { s with runState := .halted } ∧
    exitStatus { s with runState := .halted } = some 0 ∧
    ∀ k : Nat, Host.Core.run Sys2Proof.core k { s with runState := .halted } = .next { s with runState := .halted }

/-! ### Frames: what an instruction leaves unchanged -/

/-- R22: every register stays but those the table lets the instruction write (all twelve instructions, all operands). -/
def Obligations.OnlyListedRegistersChange : Prop :=
  ∀ (i : Instr) (s t : State) (r : Fin 8), exec i s = .next t → mayWriteReg i r = false → t.regs[r] = s.regs[r]

/-- R28: no instruction but CMP changes the flags. -/
def Obligations.OnlyCmpChangesFlags : Prop :=
  ∀ (i : Instr) (s t : State), exec i s = .next t → (∀ opa opb, i ≠ .cmp opa opb) → t.fl = s.fl

/-- R72, R170: an instruction other than PUSH and CALL leaves every byte of memory as it was, and those two leave every
byte but the one at `x[7] - 1`, the address their push computes. -/
def Obligations.OnlyPushedByteChanges : Prop :=
  ∀ (i : Instr) (s t : State) (x : Byte), exec i s = .next t →
    storesToMemory i = false ∨ x ≠ pushAddress s → t.mem.read x = s.mem.read x

/-- R35, R56: no instruction but PRN changes the console stream, and PRN appends at most the one byte of its register. -/
def Obligations.OnlyPrnEmits : Prop :=
  ∀ (i : Instr) (s t : State), exec i s = .next t →
    t.out = s.out ∨ ∃ (opa : Byte) (a : Fin 8), i = .prn opa ∧ opa.toNat = a.val ∧ t.out = s.out ++ [s.regs[a]]

/-- R31, R193, R222, R223: an instruction leaves the run state and the fault record alone unless it is HLT, which sets
`HALTED`, or has an illegal register operand, which sets `FAULTED` with code 3. The clause that no instruction touches the
latches is the model's choice: R34 lets them end with the step, and the model keeps them in the state (log entry 2). -/
def Obligations.OnlyHltAndFaultsEndTheRun : Prop :=
  ∀ (i : Instr) (s t : State), exec i s = .next t →
    t.latch = s.latch ∧
    ((i.wellFormed = true ∧ t.runState = (if i = .hlt then .halted else s.runState) ∧
        t.faultCode = s.faultCode ∧ t.faultInfo = s.faultInfo) ∨
      (i.wellFormed = false ∧ t.runState = .faulted ∧ t.faultCode = 3#2 ∧ 7 < t.faultInfo.toNat))

/-! ### Program counter and faults over the whole step -/

/-- R194: `pc` after every step that executes: the table's value for an instruction that does not fault, and its old value
for any fault. -/
def Obligations.ProgramCounterTable : Prop :=
  ∀ s t : State, canStep s → step s = .next t →
    (∀ i, fetchesInstr s i → t.pc = if i.wellFormed = true then pcAfter i s else s.pc) ∧
    (s.mem.read s.pc ∉ legalOpcodes → t.pc = s.pc)

/-- R222, R109: an instruction raises `IllegalOperand`, with the byte, exactly for a register operand byte above 7, operand
a before operand b; never HLT or RET, and never for LDI's immediate (the fault is the spec's addition, decision D9). -/
def Obligations.IllegalOperandExactlyAboveSeven : Prop :=
  ∀ (i : Instr) (s : State),
    (∀ b, firstIllegalOperand i = some b → exec i s = .next (faultRecorded 3#2 b s)) ∧
    (firstIllegalOperand i = none →
      ∃ t, exec i s = .next t ∧ t.faultCode = s.faultCode ∧ t.faultInfo = s.faultInfo)

/-- R226, R223: a step reports at most one fault, the first of unknown opcode, operand a, operand b; a step that faults
changes the run state and the fault record alone; any other records no fault (order: decision D20). That the latches keep the
fetched bytes after the step is no part of those rules but the model's choice (log entry 2). -/
def Obligations.FirstFaultIsReported : Prop :=
  ∀ s t : State, canStep s → step s = .next t →
    (∀ code info,
      firstFault (s.mem.read s.pc) (s.mem.read (s.pc + 1)) (s.mem.read (s.pc + 2)) = some (code, info) →
        t = faultRecorded code info (fetched s)) ∧
    (firstFault (s.mem.read s.pc) (s.mem.read (s.pc + 1)) (s.mem.read (s.pc + 2)) = none →
      t.runState ≠ .faulted ∧ t.faultCode = s.faultCode ∧ t.faultInfo = s.faultInfo)

/-- R27: `NONE` is the value after reset; no instruction and no step produces it; a legal CMP ends it (decision D4). -/
def Obligations.FlagsNeverReturnToNone : Prop :=
  State.reset.fl = .none ∧
  (∀ (i : Instr) (s t : State), exec i s = .next t → t.fl = .none → s.fl = .none) ∧
  (∀ s t : State, step s = .next t → t.fl = .none → s.fl = .none) ∧
  (∀ (opa opb : Byte) (s t : State), exec (.cmp opa opb) s = .next t →
    opa.toNat ≤ 7 → opb.toNat ≤ 7 → t.fl ≠ .none)

/-- R229: a final state of the machine is a successful end or names its fault, never both, and no step clears either. R229
calls a fault the model's fault outcome; that this outcome is what the final state names (`State.faultOutcome`) is the model's
reading (log entry 1). -/
def Obligations.FinalStatesSucceedOrNameTheirFault : Prop :=
  ∀ s : State, Inv s → s.final = true →
    (s.succeeded = true ↔ s.faultOutcome = none) ∧ (s.succeeded = true ↔ s.runState = .halted) ∧
    ∀ t, step s = .next t → t.faultOutcome = s.faultOutcome ∧ t.succeeded = s.succeeded

/-! ### Invariants -/

/-- R31, R32, R135, R154, R222, R223: every step from a state that meets the invariant leads to one that does. Two clauses of
the invariant are the model's choice: the canonical form of memory (log entry 4), and that the latches are 0 in `IDLE` (log
entry 2). -/
def Obligations.StepKeepsInv : Prop :=
  ∀ s t : State, Inv s → step s = .next t → Inv t

/-- R50 to R53, R59: not steps alone but every port transaction, a reset and a load of any byte at any address in any run
state among them, leads from a state that meets the invariant to one that does. The two clauses named at `StepKeepsInv` are
the model's choice here too (log entries 4 and 2). -/
def Obligations.PortTransactionsKeepInv : Prop :=
  ∀ (m : HostMove) (s t : State), Inv s → hostMove m s = .next t → Inv t

/-- R50, R51, R52: every state that reset and any sequence of port transactions lead to meets the invariant: loads of any
bytes at any addresses, any number of steps, and resets at any time. The canonical form of memory (log entry 4) and the
latches that are 0 in `IDLE` (log entry 2) are the model's choice. -/
def Obligations.ReachableStatesMeetInv : Prop := ∀ s : State, Reachable s → Inv s

/-- The canonical form is one form (log entry 4): memories in it that read alike at every address are the same data. -/
def Obligations.CanonicalMemoriesAreEqual : Prop :=
  ∀ m n : Memory, m.wf = true → n.wf = true → (∀ a : Byte, m.read a = n.read a) → m = n

/-! ### Instructions together -/

/-- R196 (marked 'derived' there): for every value of the flags exactly one of JEQ and JNE with the same legal operand
jumps, and the other falls through. -/
def Obligations.JeqAndJneAreComplements : Prop :=
  ∀ (opa : Byte) (a : Fin 8) (s : State), opa.toNat = a.val →
    ∃ t u, exec (.jeq opa) s = .next t ∧ exec (.jne opa) s = .next u ∧
      (s.fl = .eq ∧ t.pc = s.regs[a] ∧ u.pc = s.pc + 2 ∨ s.fl ≠ .eq ∧ t.pc = s.pc + 2 ∧ u.pc = s.regs[a])

/-- R152, R191, R192: after CMP of two registers, JEQ jumps exactly where their values are equal, and JNE exactly where
they differ, whichever is the greater (the corrected compare, R156). -/
def Obligations.BranchFollowsCompare : Prop :=
  ∀ (opa opb opc : Byte) (a b c : Fin 8) (s : State),
    opa.toNat = a.val → opb.toNat = b.val → opc.toNat = c.val →
    ∃ t u v, exec (.cmp opa opb) s = .next t ∧ exec (.jeq opc) t = .next u ∧ exec (.jne opc) t = .next v ∧
      u.pc = (if s.regs[a] = s.regs[b] then s.regs[c] else s.pc + 5) ∧
      v.pc = (if s.regs[a] = s.regs[b] then s.pc + 5 else s.regs[c])

/-- R57: after `LDI r, v` then `PRN r` the output ends in `v`, for every register and every immediate. -/
def Obligations.LdiThenPrnEmitsImmediate : Prop :=
  ∀ (opa imm : Byte) (s : State), opa.toNat ≤ 7 →
    ∃ t u, exec (.ldi opa imm) s = .next t ∧ exec (.prn opa) t = .next u ∧
      u.out = s.out ++ [imm] ∧ u.pc = s.pc + 5

/-- R173, R172: `PUSH r1; POP r2` copies the register and restores the stack pointer, for every starting stack pointer;
with `r2 = 7` the copy is what remains in `x[7]` (order of effects: decisions D16 and D17). -/
def Obligations.PushThenPopCopies : Prop :=
  ∀ (opa opb : Byte) (a b : Fin 8) (s : State), opa.toNat = a.val → opb.toNat = b.val →
    ∃ t u, exec (.push opa) s = .next t ∧ exec (.pop opb) t = .next u ∧
      u.regs = s.regs.set b s.regs[a] ∧ u.pc = s.pc + 4 ∧ u.fl = s.fl

/-- R174, R175: from any state that has the stack pointer a legal CALL left and the byte it pushed still in its cell, RET goes
to the instruction after the CALL and restores the caller's stack pointer. -/
def Obligations.CallThenRetReturns : Prop :=
  ∀ (opa : Byte) (s t u : State), opa.toNat ≤ 7 → exec (.call opa) s = .next t →
    u.regs[7] = t.regs[7] → u.mem.read (pushAddress s) = t.mem.read (pushAddress s) →
    ∃ v, exec .ret u = .next v ∧ v.pc = s.pc + 2 ∧ v.regs[7] = s.regs[7]

/-- R178 (marked 'derived' there): after `n` pushes from reset the stack pointer is `255 - n`, the first pushed byte is at
254, each later one at the next lower address, and every other cell still holds 0. -/
def Obligations.StackLayoutAfterReset : Prop :=
  ∀ pushed : List Byte, pushed.length ≤ 255 →
    ∃ t, pushed.foldl (fun s v => push v s) State.reset = t ∧
      t.regs[7].toNat = 255 - pushed.length ∧
      (∀ k (h : k < pushed.length), t.mem.read (BitVec.ofNat 8 (254 - k)) = pushed[k]) ∧
      (∀ a : Byte, a.toNat < 255 - pushed.length ∨ a = 255#8 → t.mem.read a = 0#8)

/-- R83 (marked 'derived' there), R131: a byte stored by PUSH or CALL at the address the next step fetches from is the opcode
byte of that step. The opcode is read off the latch after that step, which R34 does not promise: that the state keeps the
latches is the model's choice (log entry 2). -/
def Obligations.StoredByteIsFetchedNext : Prop :=
  ∀ (s t u : State) (opa : Byte) (a : Fin 8), canStep s → opa.toNat = a.val →
    step s = .next t → step t = .next u → t.pc = pushAddress s →
    (fetchesInstr s (.push opa) → u.latch.opc = s.regs[a]) ∧
    (fetchesInstr s (.call opa) → u.latch.opc = s.pc + 2)

/-- R190, R136: a `JMP` to its own address is an endless loop of one instruction: after every number of steps the state is
the one after its first. That this state holds the bytes R131 fetched in its latches is the model's choice (R34, log
entry 2). -/
def Obligations.JumpToItselfNeverEnds : Prop :=
  ∀ (s : State) (opa : Byte) (a : Fin 8) (k : Nat), canStep s → fetchesInstr s (.jmp opa) →
    opa.toNat = a.val → s.regs[a] = s.pc → Host.Core.run Sys2Proof.core (k + 1) s = .next (fetched s)

/-! ### Ports, console and program file -/

/-- R52: a load writes its one byte while the core is `IDLE`, changes nothing else, and is ignored in any other run state. -/
def Obligations.LoadWritesOneByteInIdle : Prop :=
  ∀ (addr data : Byte) (s : State),
    (s.runState = .idle → ∃ m : Memory, loadPort addr data s = { s with mem := m } ∧
      ∀ x : Byte, m.read x = if x = addr then data else s.mem.read x) ∧
    (s.runState ≠ .idle → loadPort addr data s = s)

/-- R52, R251: an image of at most 256 bytes loaded after reset stands at addresses 0, 1, …, the rest of memory is 0, and
nothing but memory has changed. R60 makes it the host's duty not to present a longer image; that a longer one has no load,
the answer `none`, is the model's choice (log entry 7). -/
def Obligations.LoadedImageStandsFromZero : Prop :=
  ∀ image : List Byte,
    (image.length ≤ 256 → ∃ t, loadImage image State.reset = some t ∧ t = { State.reset with mem := t.mem } ∧
      ∀ a : Byte, t.mem.read a = image.getD a.toNat 0#8) ∧
    (256 < image.length → loadImage image State.reset = none)

/-- R54, R55: what the status port shows in each run state, and the exit status of a run that has ended. -/
def Obligations.StatusAndExitStatus : Prop :=
  ∀ s : State,
    (s.runState = .idle → status s = ⟨0#2, s.faultCode, s.faultInfo⟩) ∧
    (s.runState = .running → status s = ⟨1#2, s.faultCode, s.faultInfo⟩) ∧
    (s.runState = .halted → status s = ⟨2#2, s.faultCode, s.faultInfo⟩ ∧ exitStatus s = some 0) ∧
    (s.runState = .faulted → status s = ⟨3#2, s.faultCode, s.faultInfo⟩ ∧ exitStatus s = some s.faultCode.toNat)

/-- R57: an emitted byte adds its decimal numeral and one newline to the text: the numeral is digits only, reads back as the
byte, and has no leading zero. That the newline is the one character of that name is the model's choice (log entry 14). -/
def Obligations.ConsoleRendersDecimal : Prop :=
  ∀ (out : List Byte) (v : Byte), ∃ numeral : List Char,
    renderOut (out ++ [v]) = renderOut out ++ numeral ++ ['\n'] ∧
    numeral ≠ [] ∧ (∀ c ∈ numeral, c.isDigit = true) ∧
    numeral.foldl (fun n c => 10 * n + (c.toNat - 48)) 0 = v.toNat ∧
    (numeral.head? = some '0' → numeral = ['0'])

/-- R29: the bit view of the flags: the four patterns, and no two values alike (the positions are the spec's decision D5). -/
def Obligations.FlagBitPatterns : Prop :=
  Flag.bits .none = 0b000#3 ∧ Flag.bits .eq = 0b001#3 ∧ Flag.bits .gt = 0b010#3 ∧ Flag.bits .lt = 0b100#3 ∧
  (∀ f g : Flag, f.bits = g.bits → f = g) ∧
  ∀ f : Flag, f.bits = 0b000#3 ∨ f.bits = 0b001#3 ∨ f.bits = 0b010#3 ∨ f.bits = 0b100#3

/-- R116: a line is the byte of its eight binary digits, most significant first, or blank where it has none, whatever spaces
stand around them and with a comment behind or none; and a file of such lines is the image of its bytes in order, blank and
comment lines taking no address. That a space counts as white space, and that a line comes without its line end, is presumed
(log entry 15). Lines with another number of digits are not spoken of (log entry 8). -/
def Obligations.ProgramFileLinesAreBytes : Prop :=
  (∀ l : FileLine, readLine l.text = match l.byte with | some b => .byte b | none => .blank) ∧
  ∀ file : List FileLine, readProgramFile (file.map FileLine.text) = .image (file.filterMap FileLine.byte)
end

