-- ==== Sys2Proof/Laws/Memory.lean ====
section
/-!
SUPPORT. Memory: reading after a write, and the canonical form every operation keeps.
-/

namespace Sys2Proof.Machine

theorem Memory.read_erase (m : Memory) (k : Nat) (b : Byte) :
    (Memory.erase k m).read b = if b.toNat = k then Config.cellReset else m.read b := by
  induction m with
  | nil => simp [Memory.erase, Memory.read]
  | cons c rest ih =>
    obtain ⟨j, v⟩ := c
    simp only [Memory.erase] at ih ⊢
    by_cases hjk : j = k
    · subst hjk
      rw [List.filter_cons_of_neg (by simp), ih]
      by_cases hb : b.toNat = j
      · simp [hb]
      · simp [hb, Memory.read, Ne.symm hb]
    · rw [List.filter_cons_of_pos (by simpa using hjk)]
      by_cases hb : b.toNat = k
      · simp only [Memory.read, hb, if_neg hjk, if_true] at ih ⊢
        exact ih
      · simp only [Memory.read, ih, if_neg hb]

/-- Inserting a cell whose address is not listed adds that cell and changes no other. -/
theorem Memory.read_insert (m : Memory) (k : Nat) (v b : Byte) (fresh : ∀ c ∈ m, c.1 ≠ k) :
    (Memory.insert k v m).read b = if b.toNat = k then v else m.read b := by
  induction m with
  | nil => simp [Memory.insert, Memory.read, eq_comm]
  | cons c rest ih =>
    obtain ⟨j, w⟩ := c
    have hjk : j ≠ k := fresh (j, w) (by simp)
    have ih := ih fun c hc => fresh c (by simp [hc])
    simp only [Memory.insert]
    split
    · simp [Memory.read, eq_comm]
    · simp only [Memory.read, ih]
      by_cases hb : b.toNat = k
      · simp [hb, hjk]
      · simp [hb]

theorem Memory.erase_fresh (m : Memory) (k : Nat) : ∀ c ∈ Memory.erase k m, c.1 ≠ k := by
  simp [Memory.erase]

/-- Reading after a write, in every memory, canonical or not (R71, R80): the byte written at its address, and every other
cell as it was. -/
theorem Memory.read_write (m : Memory) (a v b : Byte) :
    (m.write a v).read b = if b = a then v else m.read b := by
  have hab : b.toNat = a.toNat ↔ b = a := BitVec.toNat_inj
  unfold Memory.write
  split
  · rename_i hv
    subst hv
    rw [Memory.read_erase]
    simp [hab]
  · rw [Memory.read_insert _ _ _ _ (Memory.erase_fresh m _), Memory.read_erase]
    by_cases h : b = a
    · simp [h]
    · simp [hab, h]

theorem Memory.read_write_same (m : Memory) (a v : Byte) : (m.write a v).read a = v := by
  simp [Memory.read_write]

theorem Memory.read_write_other (m : Memory) (a v b : Byte) (h : b ≠ a) : (m.write a v).read b = m.read b := by
  simp [Memory.read_write, h]

/-- A canonical form from a higher address is one from a lower. -/
theorem Memory.wfFrom_mono {lo lo' : Nat} (m : Memory) (h : lo ≤ lo') (wf : m.wfFrom lo' = true) :
    m.wfFrom lo = true := by
  cases m with
  | nil => rfl
  | cons c rest =>
    obtain ⟨k, v⟩ := c
    simp only [Memory.wfFrom, Bool.and_eq_true, decide_eq_true_eq] at wf ⊢
    exact ⟨⟨⟨h.trans wf.1.1.1, wf.1.1.2⟩, wf.1.2⟩, wf.2⟩

theorem Memory.wfFrom_erase (m : Memory) (k lo : Nat) (wf : m.wfFrom lo = true) :
    (Memory.erase k m).wfFrom lo = true := by
  induction m generalizing lo with
  | nil => rfl
  | cons c rest ih =>
    obtain ⟨j, v⟩ := c
    simp only [Memory.wfFrom, Bool.and_eq_true, decide_eq_true_eq] at wf
    have keep := ih (j + 1) wf.2
    simp only [Memory.erase] at keep ⊢
    by_cases hjk : j = k
    · rw [List.filter_cons_of_neg (by simp [hjk])]
      exact Memory.wfFrom_mono _ (by omega) keep
    · rw [List.filter_cons_of_pos (by simpa using hjk)]
      simp only [Memory.wfFrom, Bool.and_eq_true, decide_eq_true_eq]
      exact ⟨wf.1, keep⟩

theorem Memory.wfFrom_insert (m : Memory) (k lo : Nat) (v : Byte) (hlo : lo ≤ k) (hk : k < Config.memSize)
    (hv : v ≠ Config.cellReset) (fresh : ∀ c ∈ m, c.1 ≠ k) (wf : m.wfFrom lo = true) :
    (Memory.insert k v m).wfFrom lo = true := by
  induction m generalizing lo with
  | nil => simp [Memory.insert, Memory.wfFrom, hlo, hk, hv]
  | cons c rest ih =>
    obtain ⟨j, w⟩ := c
    have hjk : j ≠ k := fresh (j, w) (by simp)
    simp only [Memory.wfFrom, Bool.and_eq_true, decide_eq_true_eq] at wf
    simp only [Memory.insert]
    split
    · simp only [Memory.wfFrom, Bool.and_eq_true, decide_eq_true_eq]
      exact ⟨⟨⟨hlo, hk⟩, hv⟩, ⟨⟨by omega, wf.1.1.2⟩, wf.1.2⟩, wf.2⟩
    · simp only [Memory.wfFrom, Bool.and_eq_true, decide_eq_true_eq]
      exact ⟨wf.1, ih (j + 1) (by omega) (fun c hc => fresh c (by simp [hc])) wf.2⟩

/-- A write keeps the canonical form. -/
theorem Memory.wf_write (m : Memory) (a v : Byte) (wf : m.wf = true) : (m.write a v).wf = true := by
  have he := Memory.wfFrom_erase m a.toNat 0 wf
  unfold Memory.write
  split
  · exact he
  · rename_i hv
    exact Memory.wfFrom_insert _ _ _ _ (Nat.zero_le _) a.isLt hv (Memory.erase_fresh m _) he

/-- Below the first address of a canonical form every cell holds its reset value. -/
theorem Memory.read_below (m : Memory) (lo : Nat) (wf : m.wfFrom lo = true) (b : Byte) (hb : b.toNat < lo) :
    m.read b = Config.cellReset := by
  induction m generalizing lo with
  | nil => rfl
  | cons c rest ih =>
    obtain ⟨k, v⟩ := c
    simp only [Memory.wfFrom, Bool.and_eq_true, decide_eq_true_eq] at wf
    have hk : k ≠ b.toNat := by omega
    simp only [Memory.read, if_neg hk]
    exact ih (k + 1) wf.2 (by omega)

end Sys2Proof.Machine
end

