-- ==== Sys2Proof/Laws/State.lean ====
section
/-!
SUPPORT. One lemma per field per update: what each named operation leaves in each field of the state.
`push` is the one composite here; its memory is described in Laws/Ops.lean.
-/

namespace Sys2Proof.Machine

@[simp] theorem writeReg_regs (r : Fin Config.numRegs) (v : Byte) (s : State) : (writeReg r v s).regs = s.regs.set r v := rfl
@[simp] theorem writeReg_pc (r : Fin Config.numRegs) (v : Byte) (s : State) : (writeReg r v s).pc = s.pc := rfl
@[simp] theorem writeReg_fl (r : Fin Config.numRegs) (v : Byte) (s : State) : (writeReg r v s).fl = s.fl := rfl
@[simp] theorem writeReg_mem (r : Fin Config.numRegs) (v : Byte) (s : State) : (writeReg r v s).mem = s.mem := rfl
@[simp] theorem writeReg_runState (r : Fin Config.numRegs) (v : Byte) (s : State) : (writeReg r v s).runState = s.runState := rfl
@[simp] theorem writeReg_faultCode (r : Fin Config.numRegs) (v : Byte) (s : State) : (writeReg r v s).faultCode = s.faultCode := rfl
@[simp] theorem writeReg_faultInfo (r : Fin Config.numRegs) (v : Byte) (s : State) : (writeReg r v s).faultInfo = s.faultInfo := rfl
@[simp] theorem writeReg_latch (r : Fin Config.numRegs) (v : Byte) (s : State) : (writeReg r v s).latch = s.latch := rfl
@[simp] theorem writeReg_out (r : Fin Config.numRegs) (v : Byte) (s : State) : (writeReg r v s).out = s.out := rfl

@[simp] theorem setPc_regs (p : Byte) (s : State) : (setPc p s).regs = s.regs := rfl
@[simp] theorem setPc_pc (p : Byte) (s : State) : (setPc p s).pc = p := rfl
@[simp] theorem setPc_fl (p : Byte) (s : State) : (setPc p s).fl = s.fl := rfl
@[simp] theorem setPc_mem (p : Byte) (s : State) : (setPc p s).mem = s.mem := rfl
@[simp] theorem setPc_runState (p : Byte) (s : State) : (setPc p s).runState = s.runState := rfl
@[simp] theorem setPc_faultCode (p : Byte) (s : State) : (setPc p s).faultCode = s.faultCode := rfl
@[simp] theorem setPc_faultInfo (p : Byte) (s : State) : (setPc p s).faultInfo = s.faultInfo := rfl
@[simp] theorem setPc_latch (p : Byte) (s : State) : (setPc p s).latch = s.latch := rfl
@[simp] theorem setPc_out (p : Byte) (s : State) : (setPc p s).out = s.out := rfl

@[simp] theorem advancePc_regs (n : Byte) (s : State) : (advancePc n s).regs = s.regs := rfl
@[simp] theorem advancePc_pc (n : Byte) (s : State) : (advancePc n s).pc = s.pc + n := rfl
@[simp] theorem advancePc_fl (n : Byte) (s : State) : (advancePc n s).fl = s.fl := rfl
@[simp] theorem advancePc_mem (n : Byte) (s : State) : (advancePc n s).mem = s.mem := rfl
@[simp] theorem advancePc_runState (n : Byte) (s : State) : (advancePc n s).runState = s.runState := rfl
@[simp] theorem advancePc_faultCode (n : Byte) (s : State) : (advancePc n s).faultCode = s.faultCode := rfl
@[simp] theorem advancePc_faultInfo (n : Byte) (s : State) : (advancePc n s).faultInfo = s.faultInfo := rfl
@[simp] theorem advancePc_latch (n : Byte) (s : State) : (advancePc n s).latch = s.latch := rfl
@[simp] theorem advancePc_out (n : Byte) (s : State) : (advancePc n s).out = s.out := rfl

@[simp] theorem setFl_regs (f : Flag) (s : State) : (setFl f s).regs = s.regs := rfl
@[simp] theorem setFl_pc (f : Flag) (s : State) : (setFl f s).pc = s.pc := rfl
@[simp] theorem setFl_fl (f : Flag) (s : State) : (setFl f s).fl = f := rfl
@[simp] theorem setFl_mem (f : Flag) (s : State) : (setFl f s).mem = s.mem := rfl
@[simp] theorem setFl_runState (f : Flag) (s : State) : (setFl f s).runState = s.runState := rfl
@[simp] theorem setFl_faultCode (f : Flag) (s : State) : (setFl f s).faultCode = s.faultCode := rfl
@[simp] theorem setFl_faultInfo (f : Flag) (s : State) : (setFl f s).faultInfo = s.faultInfo := rfl
@[simp] theorem setFl_latch (f : Flag) (s : State) : (setFl f s).latch = s.latch := rfl
@[simp] theorem setFl_out (f : Flag) (s : State) : (setFl f s).out = s.out := rfl

@[simp] theorem memWrite_regs (a v : Byte) (s : State) : (memWrite a v s).regs = s.regs := rfl
@[simp] theorem memWrite_pc (a v : Byte) (s : State) : (memWrite a v s).pc = s.pc := rfl
@[simp] theorem memWrite_fl (a v : Byte) (s : State) : (memWrite a v s).fl = s.fl := rfl
@[simp] theorem memWrite_mem (a v : Byte) (s : State) : (memWrite a v s).mem = s.mem.write a v := rfl
@[simp] theorem memWrite_runState (a v : Byte) (s : State) : (memWrite a v s).runState = s.runState := rfl
@[simp] theorem memWrite_faultCode (a v : Byte) (s : State) : (memWrite a v s).faultCode = s.faultCode := rfl
@[simp] theorem memWrite_faultInfo (a v : Byte) (s : State) : (memWrite a v s).faultInfo = s.faultInfo := rfl
@[simp] theorem memWrite_latch (a v : Byte) (s : State) : (memWrite a v s).latch = s.latch := rfl
@[simp] theorem memWrite_out (a v : Byte) (s : State) : (memWrite a v s).out = s.out := rfl

@[simp] theorem emit_regs (v : Byte) (s : State) : (emit v s).regs = s.regs := rfl
@[simp] theorem emit_pc (v : Byte) (s : State) : (emit v s).pc = s.pc := rfl
@[simp] theorem emit_fl (v : Byte) (s : State) : (emit v s).fl = s.fl := rfl
@[simp] theorem emit_mem (v : Byte) (s : State) : (emit v s).mem = s.mem := rfl
@[simp] theorem emit_runState (v : Byte) (s : State) : (emit v s).runState = s.runState := rfl
@[simp] theorem emit_faultCode (v : Byte) (s : State) : (emit v s).faultCode = s.faultCode := rfl
@[simp] theorem emit_faultInfo (v : Byte) (s : State) : (emit v s).faultInfo = s.faultInfo := rfl
@[simp] theorem emit_latch (v : Byte) (s : State) : (emit v s).latch = s.latch := rfl
@[simp] theorem emit_out (v : Byte) (s : State) : (emit v s).out = s.out ++ [v] := rfl

@[simp] theorem raise_regs (f : Fault) (s : State) : (raise f s).regs = s.regs := rfl
@[simp] theorem raise_pc (f : Fault) (s : State) : (raise f s).pc = s.pc := rfl
@[simp] theorem raise_fl (f : Fault) (s : State) : (raise f s).fl = s.fl := rfl
@[simp] theorem raise_mem (f : Fault) (s : State) : (raise f s).mem = s.mem := rfl
@[simp] theorem raise_runState (f : Fault) (s : State) : (raise f s).runState = .faulted := rfl
@[simp] theorem raise_faultCode (f : Fault) (s : State) : (raise f s).faultCode = f.code := rfl
@[simp] theorem raise_faultInfo (f : Fault) (s : State) : (raise f s).faultInfo = f.info := rfl
@[simp] theorem raise_latch (f : Fault) (s : State) : (raise f s).latch = s.latch := rfl
@[simp] theorem raise_out (f : Fault) (s : State) : (raise f s).out = s.out := rfl

@[simp] theorem halt_regs (s : State) : (halt s).regs = s.regs := rfl
@[simp] theorem halt_pc (s : State) : (halt s).pc = s.pc := rfl
@[simp] theorem halt_fl (s : State) : (halt s).fl = s.fl := rfl
@[simp] theorem halt_mem (s : State) : (halt s).mem = s.mem := rfl
@[simp] theorem halt_runState (s : State) : (halt s).runState = .halted := rfl
@[simp] theorem halt_faultCode (s : State) : (halt s).faultCode = s.faultCode := rfl
@[simp] theorem halt_faultInfo (s : State) : (halt s).faultInfo = s.faultInfo := rfl
@[simp] theorem halt_latch (s : State) : (halt s).latch = s.latch := rfl
@[simp] theorem halt_out (s : State) : (halt s).out = s.out := rfl

@[simp] theorem startStep_regs (s : State) : (startStep s).regs = s.regs := rfl
@[simp] theorem startStep_pc (s : State) : (startStep s).pc = s.pc := rfl
@[simp] theorem startStep_fl (s : State) : (startStep s).fl = s.fl := rfl
@[simp] theorem startStep_mem (s : State) : (startStep s).mem = s.mem := rfl
@[simp] theorem startStep_runState (s : State) : (startStep s).runState = .running := rfl
@[simp] theorem startStep_faultCode (s : State) : (startStep s).faultCode = s.faultCode := rfl
@[simp] theorem startStep_faultInfo (s : State) : (startStep s).faultInfo = s.faultInfo := rfl
@[simp] theorem startStep_latch (s : State) : (startStep s).latch = s.latch := rfl
@[simp] theorem startStep_out (s : State) : (startStep s).out = s.out := rfl

@[simp] theorem fetch_regs (s : State) : (fetch s).regs = s.regs := rfl
@[simp] theorem fetch_pc (s : State) : (fetch s).pc = s.pc := rfl
@[simp] theorem fetch_fl (s : State) : (fetch s).fl = s.fl := rfl
@[simp] theorem fetch_mem (s : State) : (fetch s).mem = s.mem := rfl
@[simp] theorem fetch_runState (s : State) : (fetch s).runState = s.runState := rfl
@[simp] theorem fetch_faultCode (s : State) : (fetch s).faultCode = s.faultCode := rfl
@[simp] theorem fetch_faultInfo (s : State) : (fetch s).faultInfo = s.faultInfo := rfl
@[simp] theorem fetch_latch (s : State) : (fetch s).latch = ⟨s.mem.read s.pc, s.mem.read (s.pc + 1), s.mem.read (s.pc + 2)⟩ := rfl
@[simp] theorem fetch_out (s : State) : (fetch s).out = s.out := rfl

@[simp] theorem push_regs (v : Byte) (s : State) : (push v s).regs = s.regs.set 7 (s.regs[7] - 1) := rfl
@[simp] theorem push_pc (v : Byte) (s : State) : (push v s).pc = s.pc := rfl
@[simp] theorem push_fl (v : Byte) (s : State) : (push v s).fl = s.fl := rfl
@[simp] theorem push_runState (v : Byte) (s : State) : (push v s).runState = s.runState := rfl
@[simp] theorem push_faultCode (v : Byte) (s : State) : (push v s).faultCode = s.faultCode := rfl
@[simp] theorem push_faultInfo (v : Byte) (s : State) : (push v s).faultInfo = s.faultInfo := rfl
@[simp] theorem push_latch (v : Byte) (s : State) : (push v s).latch = s.latch := rfl
@[simp] theorem push_out (v : Byte) (s : State) : (push v s).out = s.out := rfl

@[simp] theorem pop_regs (s : State) : (pop s).2.regs = s.regs.set 7 (s.regs[7] + 1) := rfl
@[simp] theorem pop_pc (s : State) : (pop s).2.pc = s.pc := rfl
@[simp] theorem pop_fl (s : State) : (pop s).2.fl = s.fl := rfl
@[simp] theorem pop_mem (s : State) : (pop s).2.mem = s.mem := rfl
@[simp] theorem pop_runState (s : State) : (pop s).2.runState = s.runState := rfl
@[simp] theorem pop_faultCode (s : State) : (pop s).2.faultCode = s.faultCode := rfl
@[simp] theorem pop_faultInfo (s : State) : (pop s).2.faultInfo = s.faultInfo := rfl
@[simp] theorem pop_latch (s : State) : (pop s).2.latch = s.latch := rfl
@[simp] theorem pop_out (s : State) : (pop s).2.out = s.out := rfl

end Sys2Proof.Machine
end

