-- ==== Sys2Proof/Laws/Ops.lean ====
section
/-!
SUPPORT. What each shared operation can do, said once: register access, the operand checks, the stack primitives.
-/

namespace Sys2Proof.Machine

@[simp] theorem readReg_eq (r : Fin Config.numRegs) (s : State) : readReg r s = s.regs[r] := rfl

@[simp] theorem memRead_eq (a : Byte) (s : State) : memRead a s = s.mem.read a := rfl

/-- A register reads what was last written to it, and the others as before (R20). -/
theorem readReg_writeReg (r q : Fin Config.numRegs) (v : Byte) (s : State) :
    readReg q (writeReg r v s) = if q = r then v else readReg q s := by
  simp only [readReg_eq, writeReg_regs, Fin.getElem_fin, Vector.getElem_set, Fin.ext_iff, eq_comm]

/-- An operand byte 0 to 7 selects the register of that number. -/
theorem regIdx_legal (opa : Byte) (a : Fin Config.numRegs) (h : opa.toNat = a.val) : regIdx opa = .ok a := by
  have lt : opa.toNat < Config.numRegs := h ▸ a.isLt
  simp only [regIdx, dif_pos lt, Except.ok.injEq]
  exact Fin.ext h

/-- An operand byte above 7 selects nothing. -/
theorem regIdx_illegal (opa : Byte) (h : 7 < opa.toNat) : regIdx opa = .error (.illegalOperand opa) := by
  have nlt : ¬ opa.toNat < Config.numRegs := by simp only [Config.numRegs]; omega
  simp only [regIdx, dif_neg nlt]

theorem withReg_legal (opa : Byte) (a : Fin Config.numRegs) (effect) (s : State) (h : opa.toNat = a.val) :
    withReg opa effect s = effect a s := by
  simp only [withReg, regIdx_legal opa a h]

theorem withReg_illegal (opa : Byte) (effect) (s : State) (h : 7 < opa.toNat) :
    withReg opa effect s = raise (.illegalOperand opa) s := by
  simp only [withReg, regIdx_illegal opa h]

/-- All an instruction with one register operand can do: fault on a byte above 7, or its effect on that register. -/
theorem withReg_cases (opa : Byte) (effect) (s : State) :
    (7 < opa.toNat ∧ withReg opa effect s = raise (.illegalOperand opa) s) ∨
    ∃ a : Fin Config.numRegs, opa.toNat = a.val ∧ withReg opa effect s = effect a s := by
  by_cases h : 7 < opa.toNat
  · exact .inl ⟨h, withReg_illegal opa effect s h⟩
  · exact .inr ⟨⟨opa.toNat, by simp only [Config.numRegs]; omega⟩, rfl, withReg_legal opa _ effect s rfl⟩

/-- All an instruction with two register operands can do: fault on operand a, else on operand b, else its effect. -/
theorem withRegs_cases (opa opb : Byte) (effect) (s : State) :
    (7 < opa.toNat ∧ withRegs opa opb effect s = raise (.illegalOperand opa) s) ∨
    (opa.toNat ≤ 7 ∧ 7 < opb.toNat ∧ withRegs opa opb effect s = raise (.illegalOperand opb) s) ∨
    ∃ a b : Fin Config.numRegs, opa.toNat = a.val ∧ opb.toNat = b.val ∧ withRegs opa opb effect s = effect a b s := by
  obtain ⟨ha, h⟩ | ⟨a, ha, h⟩ := withReg_cases opa (fun a => withReg opb (effect a)) s
  · exact .inl ⟨ha, h⟩
  · have ha7 : opa.toNat ≤ 7 := by have := a.isLt; simp only [Config.numRegs] at this; omega
    obtain ⟨hb, h'⟩ | ⟨b, hb, h'⟩ := withReg_cases opb (effect a) s
    · exact .inr (.inl ⟨ha7, hb, h.trans h'⟩)
    · exact .inr (.inr ⟨a, b, ha, hb, h.trans h'⟩)

/-- `Push(v)` writes `v` at the decremented stack pointer (R170). -/
theorem push_mem (v : Byte) (s : State) : (push v s).mem = s.mem.write (s.regs[7] - 1) v := by
  simp [push, Config.spIndex]

/-- `Pop()` gives the byte at the stack pointer as it stood (R171). -/
theorem pop_value (s : State) : (pop s).1 = s.mem.read s.regs[7] := rfl

/-- A pop after a push gives the byte back and restores the whole register file, for every stack pointer. -/
theorem pop_push (v : Byte) (s : State) : (pop (push v s)).1 = v ∧ (pop (push v s)).2.regs = s.regs := by
  refine ⟨by simp [pop_value, push_mem, Memory.read_write], ?_⟩
  ext i hi
  simp

end Sys2Proof.Machine
end

