-- ==== Sys2Proof/Laws/PerInstr.lean ====
section
/-!
SUPPORT. One family of statements made per instruction: the length of the encoding is the one the opcode byte gives (R105).
-/

namespace Sys2Proof.Laws.EncodedLength

/-- The instruction has an opcode byte, and is as long as R106 says of that byte. -/
def Statement (i : Instr) : Prop :=
  ∃ opc operands, encode i = opc :: operands ∧ opcodeLength opc = some (encode i).length

theorem ldi (opa imm : Byte) : Statement (.ldi opa imm) := ⟨0x82#8, [opa, imm], rfl, rfl⟩
theorem hlt : Statement .hlt := ⟨0x01#8, [], rfl, rfl⟩
theorem prn (opa : Byte) : Statement (.prn opa) := ⟨0x47#8, [opa], rfl, rfl⟩
theorem mul (opa opb : Byte) : Statement (.mul opa opb) := ⟨0xA2#8, [opa, opb], rfl, rfl⟩
theorem pop (opa : Byte) : Statement (.pop opa) := ⟨0x46#8, [opa], rfl, rfl⟩
theorem push (opa : Byte) : Statement (.push opa) := ⟨0x45#8, [opa], rfl, rfl⟩
theorem call (opa : Byte) : Statement (.call opa) := ⟨0x50#8, [opa], rfl, rfl⟩
theorem ret : Statement .ret := ⟨0x11#8, [], rfl, rfl⟩
theorem cmp (opa opb : Byte) : Statement (.cmp opa opb) := ⟨0xA7#8, [opa, opb], rfl, rfl⟩
theorem jmp (opa : Byte) : Statement (.jmp opa) := ⟨0x54#8, [opa], rfl, rfl⟩
theorem jne (opa : Byte) : Statement (.jne opa) := ⟨0x56#8, [opa], rfl, rfl⟩
theorem jeq (opa : Byte) : Statement (.jeq opa) := ⟨0x55#8, [opa], rfl, rfl⟩

end Sys2Proof.Laws.EncodedLength
end

