-- ==== Sys2Proof/Tests/Slice0.lean ====
section
/-!
SUPPORT. Tests of the model's own work: well-formedness, words written out from the catalogue (R106), single steps taken from
the spec's vectors (95_test_vectors.md, named V1 to V91), and a witness for the hypotheses of every statement that has any.
-/

namespace Sys2Proof.Tests

open Sys2Proof.Machine

/-- The start of a vector: `RUNNING`, the bytes at `pc` and the addresses after it. -/
def start (pc : Byte) (bytes : List Byte) : State :=
  { loadFrom pc bytes State.reset with pc := pc, runState := .running }

/-- A vector's start with a value in one register. -/
def withX (r : Fin 8) (v : Byte) (s : State) : State := { s with regs := s.regs.set r v }

/-- The state after one step. -/
def after (s : State) : State :=
  match step s with
  | .next t => t
  | _ => State.reset

/-! ### Well-formedness: an ill-formed term for each check -/

theorem test_wf_refuses_ldi : (Instr.ldi 8#8 0#8).wellFormed = false := by decide
theorem test_wf_refuses_prn : (Instr.prn 10#8).wellFormed = false := by decide
theorem test_wf_refuses_mul_a : (Instr.mul 9#8 0#8).wellFormed = false := by decide
theorem test_wf_refuses_mul_b : (Instr.mul 0#8 8#8).wellFormed = false := by decide
theorem test_wf_refuses_pop : (Instr.pop 9#8).wellFormed = false := by decide
theorem test_wf_refuses_push : (Instr.push 8#8).wellFormed = false := by decide
theorem test_wf_refuses_call : (Instr.call 15#8).wellFormed = false := by decide
theorem test_wf_refuses_cmp_a : (Instr.cmp 255#8 0#8).wellFormed = false := by decide
theorem test_wf_refuses_cmp_b : (Instr.cmp 0#8 8#8).wellFormed = false := by decide
theorem test_wf_refuses_jmp : (Instr.jmp 8#8).wellFormed = false := by decide
theorem test_wf_refuses_jne : (Instr.jne 9#8).wellFormed = false := by decide
theorem test_wf_refuses_jeq : (Instr.jeq 9#8).wellFormed = false := by decide
theorem test_wf_accepts_any_immediate : (Instr.ldi 7#8 255#8).wellFormed = true := by decide

/-! ### Decoding: every constructor by a word written out bit by bit from R106 -/

theorem test_decode_ldi : decode 0b10000010#8 0b00000000#8 0b00001000#8 = .ok (.ldi 0#8 8#8) := rfl
theorem test_decode_hlt : decode 0b00000001#8 0b00000000#8 0b00000000#8 = .ok .hlt := rfl
theorem test_decode_prn : decode 0b01000111#8 0b00000101#8 0b00000000#8 = .ok (.prn 5#8) := rfl
theorem test_decode_mul : decode 0b10100010#8 0b00000000#8 0b00000001#8 = .ok (.mul 0#8 1#8) := rfl
theorem test_decode_pop : decode 0b01000110#8 0b00000010#8 0b00000000#8 = .ok (.pop 2#8) := rfl
theorem test_decode_push : decode 0b01000101#8 0b00000001#8 0b00000000#8 = .ok (.push 1#8) := rfl
theorem test_decode_call : decode 0b01010000#8 0b00000001#8 0b00000000#8 = .ok (.call 1#8) := rfl
theorem test_decode_ret : decode 0b00010001#8 0b01110111#8 0b00000000#8 = .ok .ret := rfl
theorem test_decode_cmp : decode 0b10100111#8 0b00000000#8 0b00000001#8 = .ok (.cmp 0#8 1#8) := rfl
theorem test_decode_jmp : decode 0b01010100#8 0b00000010#8 0b00000000#8 = .ok (.jmp 2#8) := rfl
theorem test_decode_jne : decode 0b01010110#8 0b00000011#8 0b00000000#8 = .ok (.jne 3#8) := rfl
theorem test_decode_jeq : decode 0b01010101#8 0b00000010#8 0b00000000#8 = .ok (.jeq 2#8) := rfl
/-- V83: bits 7:6 are those of a one-operand instruction, and the byte is unknown all the same. -/
theorem test_decode_unknown : decode 0x57#8 0x00#8 0x00#8 = .error (.unknownOpcode 0x57#8) := rfl
/-- V82: one bit from LDI. -/
theorem test_table_word_unknown : decodeTableWord 24 0x010083 = none := rfl
theorem test_table_word_mul : decodeTableWord 24 0x0100A2 = some (.mul 0#8 1#8) := rfl
/-- R115: the source's own list of bytes. -/
theorem test_image_of_the_source :
    encodeAll [.ldi 0 8, .ldi 1 9, .mul 0 1, .prn 0, .hlt] =
      [0x82, 0x00, 0x08, 0x82, 0x01, 0x09, 0xA2, 0x00, 0x01, 0x47, 0x00, 0x01] := rfl

/-! ### Single steps, expected results from the spec's vectors -/

/-- V4: LDI R7 moves the stack pointer. -/
theorem test_ldi_sp : (after (start 0x10 [0x82, 0x07, 0x80])).regs[7] = 0x80#8 ∧
    (after (start 0x10 [0x82, 0x07, 0x80])).pc = 0x13#8 := by decide
/-- V9: opcode at 0xFF, both operands from the bottom of memory. -/
theorem test_ldi_fetch_wraps : (after (start 0xFF [0x82, 0x05, 0x09])).regs[5] = 0x09#8 ∧
    (after (start 0xFF [0x82, 0x05, 0x09])).pc = 0x02#8 := by decide
/-- V12. -/
theorem test_prn_255 : (after (withX 5 0xFF (start 0x09 [0x47, 0x05]))).out = [255#8] ∧
    (after (withX 5 0xFF (start 0x09 [0x47, 0x05]))).pc = 0x0B#8 := by decide
/-- V14: illegal operand, nothing emitted. -/
theorem test_prn_illegal : (after (start 0x09 [0x47, 0x0A])).out = [] ∧
    (after (start 0x09 [0x47, 0x0A])).faultOutcome = some (.illegalOperand 0x0A#8) := by decide
/-- V19: 200 * 2 keeps 144. -/
theorem test_mul_wraps : (after (withX 0 0xC8 (withX 1 0x02 (start 0x06 [0xA2, 0x00, 0x01])))).regs[0] = 0x90#8 := by decide
/-- V27: operand b is illegal, and x[0] stays. -/
theorem test_mul_illegal_b : (after (withX 0 0x02 (start 0x06 [0xA2, 0x00, 0x08]))).regs[0] = 0x02#8 ∧
    status (after (withX 0 0x02 (start 0x06 [0xA2, 0x00, 0x08]))) = ⟨3#2, 3#2, 0x08#8⟩ := by decide
/-- V31: unsigned, 0 is less than 255. -/
theorem test_cmp_unsigned : (after (withX 1 0xFF (start 0x09 [0xA7, 0x00, 0x01]))).fl = .lt := by decide
/-- V29: the case the original code could not reach. -/
theorem test_cmp_greater : (after (withX 0 0x14 (withX 1 0x0A (start 0x09 [0xA7, 0x00, 0x01])))).fl = .gt := by decide
/-- V37: PUSH R7 stores the old stack pointer. -/
theorem test_push_sp : (after (start 0x04 [0x45, 0x07])).regs[7] = 0xFE#8 ∧
    (after (start 0x04 [0x45, 0x07])).mem.read 0xFE = 0xFF#8 := by decide
/-- V39: the push overwrites its own operand byte; the value pushed is x[0]. -/
theorem test_push_own_operand :
    (after (withX 0 0x07 (withX 7 0x12 (start 0x10 [0x45, 0x00])))).mem = [(0x10, 0x45#8), (0x11, 0x07#8)] ∧
      (after (withX 0 0x07 (withX 7 0x12 (start 0x10 [0x45, 0x00])))).pc = 0x12#8 := by decide
/-- V43: POP R7 ends as the popped byte. -/
theorem test_pop_sp : (after (withX 7 0xFE (loadFrom 0xFE [0x80] State.reset |> fun s =>
    { loadFrom 0x06 [0x46, 0x07] s with pc := 0x06, runState := .running }))).regs[7] = 0x80#8 := by decide
/-- V44: a pop of the empty stack reads address 0xFF and wraps the pointer. -/
theorem test_pop_empty : (after (withX 0 0x09 (start 0x06 [0x46, 0x00]))).regs = #v[0, 0, 0, 0, 0, 0, 0, 0] := by decide
/-- V48: CALL R7 jumps to the decremented stack pointer. -/
theorem test_call_sp : (after (start 0x10 [0x50, 0x07])).pc = 0xFE#8 ∧
    (after (start 0x10 [0x50, 0x07])).mem.read 0xFE = 0x12#8 := by decide
/-- V50: opcode at 0xFF, return address 0x01. -/
theorem test_call_wraps : (after (withX 1 0x40 (start 0xFF [0x50, 0x01]))).pc = 0x40#8 ∧
    (after (withX 1 0x40 (start 0xFF [0x50, 0x01]))).mem.read 0xFE = 0x01#8 := by decide
/-- V57: the ignored operand byte and the popped byte are the same cell. -/
theorem test_ret_pops : (after (withX 7 0x16 (start 0x15 [0x11, 0x77]))).pc = 0x77#8 ∧
    (after (withX 7 0x16 (start 0x15 [0x11, 0x77]))).regs[7] = 0x17#8 := by decide
/-- V60: JMP R7. -/
theorem test_jmp_sp : (after (start 0x0C [0x54, 0x07])).pc = 0xFF#8 := by decide
/-- V66: JEQ before any CMP falls through (decision D4). -/
theorem test_jeq_none : (after (withX 2 0x20 (start 0x0C [0x55, 0x02]))).pc = 0x0E#8 := by decide
/-- V67: the operand is checked though the jump would not be taken. -/
theorem test_jeq_illegal : (after (setFl .lt (start 0x0C [0x55, 0x09]))).faultOutcome = some (.illegalOperand 9#8) ∧
    (after (setFl .lt (start 0x0C [0x55, 0x09]))).pc = 0x0C#8 := by decide
/-- V69: JNE falls through on EQ. -/
theorem test_jne_eq : (after (setFl .eq (withX 3 0x0C (start 0x14 [0x56, 0x03])))).pc = 0x16#8 := by decide
/-- V72: JNE before any CMP jumps (decision D4). -/
theorem test_jne_none : (after (withX 3 0x0C (start 0x14 [0x56, 0x03]))).pc = 0x0C#8 := by decide
/-- V74: `pc` stays on the HLT byte. -/
theorem test_hlt : (after (start 0x0B [0x01])).runState = .halted ∧ (after (start 0x0B [0x01])).pc = 0x0B#8 := by decide
/-- V77: the source's example of an unknown opcode. -/
theorem test_unknown_opcode : after (start 0x00 [0xFF]) =
    { start 0x00 [0xFF] with runState := .faulted, faultCode := 1, faultInfo := 0xFF, latch := ⟨0xFF, 0, 0⟩ } := by decide
/-- V79: 0xA0 is not ADD. -/
theorem test_no_add : (after (start 0x00 [0xA0, 0x00, 0x01])).faultOutcome = some (.unknownOpcode 0xA0#8) := by decide
/-- V80: an unknown opcode wins over bad operands. -/
theorem test_unknown_first : (after (start 0x00 [0xFF, 0x09, 0x0A])).faultOutcome = some (.unknownOpcode 0xFF#8) := by decide
/-- V86, V88: a step in `IDLE` runs the loaded HLT, and a load after it is ignored. -/
theorem test_load_then_step : (after (loadPort 0 0x01 State.reset)).runState = .halted ∧
    (loadPort 0 0x82 (after (loadPort 0 0x01 State.reset))).mem.read 0 = 0x01#8 := by decide
/-- The host's own placing of an instruction: MUL runs as the first instruction after reset. -/
theorem test_with_fetch_word : (after (State.reset.withFetchWord 24 0x0100A2)).pc = 0x03#8 ∧
    (after (State.reset.withFetchWord 24 0x0100A2)).runState = .running := by decide
/-- An ended run is made steppable by it. -/
theorem test_with_fetch_word_after_halt :
    (after ((after (start 0x0B [0x01])).withFetchWord 16 0x0054)).pc = 0x00#8 := by decide
/-- R57: the text of the output of program P3 begins so. -/
theorem test_render : renderOut [2, 4, 16] = ['2', '\n', '4', '\n', '1', '6', '\n'] := by decide
/-- R116: a line with a comment, a blank line, and a malformed one. -/
theorem test_program_file :
    readProgramFile [['1', '0', '0', '0', '0', '0', '1', '0', ' ', '#', 'x'], [' '], ['0', '0', '0', '0', '1', '0', '0', '0']] =
      .image [0x82#8, 0x08#8] ∧ readProgramFile [['1', '2']] = .loaderError ∧ readProgramFile [['1', '0']] = .undecided := by
  decide

/-- R116: the example line, and a comment line. -/
theorem test_file_line_text :
    FileLine.text ⟨0, some 0x82, 1, some [' ', 'L', 'D', 'I', ' ', 'R', '0', ',', '8']⟩ =
        ['1', '0', '0', '0', '0', '0', '1', '0', ' ', '#', ' ', 'L', 'D', 'I', ' ', 'R', '0', ',', '8'] ∧
      FileLine.text ⟨1, none, 0, some ['x']⟩ = [' ', '#', 'x'] := by decide

/-! ### Witnesses: the hypotheses of each statement hold of concrete states and operands, at the boundaries of each clause -/

/-- MUL R0, R1 at 0, `RUNNING`. -/
def mulStart : State := start 0 [0xA2, 0x00, 0x01]

theorem witness_DecodeReadsBackEncode :
    encode (.mul 7 255) <+: [0xA2, 7, 255] ∧ encode (.push 7) <+: [0x45, 7, 255] ∧ encode .ret <+: [0x11, 255, 0] := by decide
theorem witness_EncodeReadsBackDecode : decode 0x82 7 255 = .ok (.ldi 7 255) := rfl
theorem witness_OpcodeByteAloneDecides :
    (0x01#8 ∈ legalOpcodes ∧ 0xA7#8 ∈ legalOpcodes) ∧ 0x00#8 ∉ legalOpcodes ∧ 0xA8#8 ∉ legalOpcodes := by decide
theorem witness_OpcodeBitRegularities : encode .hlt = 0x01#8 :: [] ∧ encode (.cmp 7 7) = 0xA7#8 :: [7, 7] := by decide
theorem witness_StepRunsDecodedInstruction : canStep mulStart ∧ fetchesInstr mulStart (.mul 0 1) := ⟨.inr rfl, rfl⟩
theorem witness_UnknownOpcodeStopsTheCore :
    canStep State.reset ∧ State.reset.mem.read State.reset.pc ∉ legalOpcodes := ⟨.inl rfl, by decide⟩
theorem witness_FinalStatesNeverChange_halted : (after (start 0 [0x01])).runState = .halted := by decide
theorem witness_FinalStatesNeverChange_faulted : (after State.reset).runState = .faulted := by decide
theorem witness_StepIgnoresOldLatches : canStep mulStart ∧ step mulStart = .next (after mulStart) := ⟨.inr rfl, rfl⟩
theorem witness_StepNeverReadsOutput :
    step (start 0 [0x47, 0x07]) = .next (after (start 0 [0x47, 0x07])) ∧ step (after State.reset) = .next (after State.reset) :=
  ⟨rfl, rfl⟩
theorem witness_LdiLoadsImmediate : (7#8).toNat = (7 : Fin 8).val ∧ 7 < (8#8).toNat := by decide
theorem witness_PrnEmitsRegister : (0#8).toNat = (0 : Fin 8).val ∧ 7 < (255#8).toNat := by decide
theorem witness_MulKeepsLowByteOfProduct :
    ((7#8).toNat = (7 : Fin 8).val ∧ (7#8).toNat = (7 : Fin 8).val) ∧ 7 < (8#8).toNat ∧
      ((7#8).toNat ≤ 7 ∧ 7 < (8#8).toNat) := by decide
theorem witness_CmpComparesThreeWays_legal :
    (0#8).toNat = (0 : Fin 8).val ∧ (7#8).toNat = (7 : Fin 8).val ∧
      State.reset.regs[(0 : Fin 8)].toNat < State.reset.regs[(7 : Fin 8)].toNat ∧
      State.reset.regs[(7 : Fin 8)].toNat > State.reset.regs[(0 : Fin 8)].toNat ∧
      State.reset.regs[(7 : Fin 8)].toNat = State.reset.regs[(7 : Fin 8)].toNat := by decide
theorem witness_CmpComparesThreeWays_illegal : 7 < (8#8).toNat ∧ ((7#8).toNat ≤ 7 ∧ 7 < (8#8).toNat) := by decide
theorem witness_PushStoresRegister : (7#8).toNat = (7 : Fin 8).val ∧ 7 < (8#8).toNat := by decide
theorem witness_PopLoadsRegister : (7#8).toNat = (7 : Fin 8).val ∧ 7 < (8#8).toNat := by decide
theorem witness_CallPushesReturnAddress : (7#8).toNat = (7 : Fin 8).val ∧ 7 < (8#8).toNat := by decide
theorem witness_JmpGoesToRegister : (7#8).toNat = (7 : Fin 8).val ∧ 7 < (8#8).toNat := by decide
theorem witness_JeqJumpsOnEqual :
    (7#8).toNat = (7 : Fin 8).val ∧ (setFl .eq State.reset).fl = .eq ∧ State.reset.fl ≠ .eq ∧ 7 < (8#8).toNat := by decide
theorem witness_JneJumpsOnNotEqual :
    (7#8).toNat = (7 : Fin 8).val ∧ (setFl .gt State.reset).fl ≠ .eq ∧ (setFl .eq State.reset).fl = .eq ∧ 7 < (8#8).toNat := by
  decide
theorem witness_OnlyListedRegistersChange :
    (∃ t, exec (.pop 0) State.reset = .next t) ∧ mayWriteReg (.pop 0) 6 = false := ⟨⟨_, rfl⟩, by decide⟩
theorem witness_OnlyCmpChangesFlags :
    (∃ t, exec (.mul 0 7) State.reset = .next t) ∧ ∀ opa opb, Instr.mul 0 7 ≠ .cmp opa opb :=
  ⟨⟨_, rfl⟩, fun _ _ => Instr.noConfusion⟩
theorem witness_OnlyPushedByteChanges_storing :
    (∃ t, exec (.push 7) State.reset = .next t) ∧ (253#8 : Byte) ≠ pushAddress State.reset ∧
      (255#8 : Byte) ≠ pushAddress State.reset := ⟨⟨_, rfl⟩, by decide, by decide⟩
theorem witness_OnlyPushedByteChanges_other :
    (∃ t, exec (.pop 7) State.reset = .next t) ∧ storesToMemory (.pop 7) = false := ⟨⟨_, rfl⟩, rfl⟩
theorem witness_OnlyPrnEmits : ∃ t, exec (.prn 7) State.reset = .next t := ⟨_, rfl⟩
theorem witness_OnlyHltAndFaultsEndTheRun :
    (∃ t, exec .hlt State.reset = .next t) ∧ ∃ t, exec (.jmp 8) State.reset = .next t := ⟨⟨_, rfl⟩, ⟨_, rfl⟩⟩
theorem witness_ProgramCounterTable :
    canStep mulStart ∧ step mulStart = .next (after mulStart) ∧ fetchesInstr mulStart (.mul 0 1) := ⟨.inr rfl, rfl, rfl⟩
theorem witness_ProgramCounterTable_unknown :
    canStep State.reset ∧ step State.reset = .next (after State.reset) ∧ State.reset.mem.read State.reset.pc ∉ legalOpcodes :=
  ⟨.inl rfl, rfl, by decide⟩
theorem witness_IllegalOperandExactlyAboveSeven :
    firstIllegalOperand (.mul 7 8) = some 8 ∧ firstIllegalOperand (.mul 8 9) = some 8 ∧
      firstIllegalOperand (.ldi 7 8) = none := by decide
theorem witness_FirstFaultIsReported :
    (canStep mulStart ∧ step mulStart = .next (after mulStart) ∧ firstFault 0xA2 0x00 0x01 = none) ∧
      firstFault 0xA2 0x09 0x0A = some (3, 0x09) ∧ firstFault 0xA2 0x07 0x08 = some (3, 0x08) ∧
      firstFault 0xFF 0x09 0x0A = some (1, 0xFF) := ⟨⟨.inr rfl, rfl, by decide⟩, by decide⟩
/-- The fault a step from a state reports by the statement's table. -/
def reported (s : State) : Option (BitVec 2 × Byte) :=
  firstFault (s.mem.read s.pc) (s.mem.read (s.pc + 1)) (s.mem.read (s.pc + 2))
/-- V27's bytes, operand b illegal, and R226's two examples, operand a and the opcode. -/
def illegalB : State := start 0x06 [0xA2, 0x00, 0x08]
def illegalA : State := start 0x00 [0xA2, 0x09, 0x0A]
def unknownByte : State := start 0x00 [0xFF, 0x09, 0x0A]
theorem witness_FirstFaultIsReported_operand_b :
    canStep illegalB ∧ step illegalB = .next (after illegalB) ∧ reported illegalB = some (3, 0x08) := ⟨.inr rfl, rfl, by decide⟩
theorem witness_FirstFaultIsReported_operand_a :
    canStep illegalA ∧ step illegalA = .next (after illegalA) ∧ reported illegalA = some (3, 0x09) := ⟨.inr rfl, rfl, by decide⟩
theorem witness_FirstFaultIsReported_opcode :
    canStep unknownByte ∧ step unknownByte = .next (after unknownByte) ∧ reported unknownByte = some (1, 0xFF) :=
  ⟨.inr rfl, rfl, by decide⟩
theorem witness_FlagsNeverReturnToNone :
    (∃ t, exec (.mul 0 1) State.reset = .next t ∧ t.fl = .none) ∧ (∃ t, step State.reset = .next t ∧ t.fl = .none) ∧
      (∃ t, exec (.cmp 7 0) State.reset = .next t) ∧ (7#8).toNat ≤ 7 ∧ (0#8).toNat ≤ 7 :=
  ⟨⟨_, rfl, rfl⟩, ⟨_, rfl, rfl⟩, ⟨_, rfl⟩, by decide, by decide⟩
/-- The state HLT leads to from reset. -/
def haltedState : State := { State.reset with runState := .halted }
theorem witness_FinalStatesSucceedOrNameTheirFault :
    Inv haltedState ∧ haltedState.final = true ∧ step haltedState = .next haltedState :=
  ⟨⟨by decide, by decide, by decide, by decide, by decide, by decide, by decide⟩, by decide, rfl⟩
/-- The final states of V77 (unknown opcode) and V27 (operand b illegal). -/
theorem witness_FinalStatesSucceedOrNameTheirFault_unknown :
    Inv (after unknownByte) ∧ (after unknownByte).final = true ∧ (after unknownByte).runState = .faulted ∧
      step (after unknownByte) = .next (after unknownByte) :=
  ⟨⟨by decide, by decide, by decide, by decide, by decide, by decide, by decide⟩, by decide, by decide, rfl⟩
theorem witness_FinalStatesSucceedOrNameTheirFault_illegal :
    Inv (after illegalB) ∧ (after illegalB).final = true ∧ (after illegalB).runState = .faulted ∧
      step (after illegalB) = .next (after illegalB) :=
  ⟨⟨by decide, by decide, by decide, by decide, by decide, by decide, by decide⟩, by decide, by decide, rfl⟩
theorem witness_StepKeepsInv : Inv haltedState ∧ ∃ t, step haltedState = .next t :=
  ⟨witness_FinalStatesSucceedOrNameTheirFault.1, _, rfl⟩
/-- PUSH R7, `RUNNING`. -/
def pushRun : State := start 0x04 [0x45, 0x07]
/-- MUL loaded in `IDLE`: its first step executes it. -/
def loadedIdle : State := loadFrom 0 [0xA2, 0x00, 0x01] State.reset
theorem witness_StepKeepsInv_first_step : Inv loadedIdle ∧ ∃ t, step loadedIdle = .next t ∧ t.pc = 3#8 :=
  ⟨⟨by decide, by decide, by decide, by decide, by decide, by decide, by decide⟩, _, rfl, by decide⟩
theorem witness_StepKeepsInv_running : Inv pushRun ∧ ∃ t, step pushRun = .next t ∧ t.mem ≠ pushRun.mem :=
  ⟨⟨by decide, by decide, by decide, by decide, by decide, by decide, by decide⟩, _, rfl, by decide⟩
theorem witness_StepKeepsInv_faulting : Inv illegalB ∧ ∃ t, step illegalB = .next t ∧ t.runState = .faulted :=
  ⟨⟨by decide, by decide, by decide, by decide, by decide, by decide, by decide⟩, _, rfl, by decide⟩
theorem witness_PortTransactionsKeepInv_load :
    Inv loadedIdle ∧ ∃ t, hostMove (.load 0xFF 0x01) loadedIdle = .next t ∧ t.mem.read 0xFF = 0x01#8 :=
  ⟨witness_StepKeepsInv_first_step.1, _, rfl, by decide⟩
theorem witness_PortTransactionsKeepInv_reset :
    Inv haltedState ∧ ∃ t, hostMove .reset haltedState = .next t ∧ t.runState = .idle :=
  ⟨witness_FinalStatesSucceedOrNameTheirFault.1, _, rfl, rfl⟩
theorem witness_PortTransactionsKeepInv_step : Inv illegalB ∧ ∃ t, hostMove .step illegalB = .next t :=
  ⟨witness_StepKeepsInv_faulting.1, _, rfl⟩
theorem witness_ReachableStatesMeetInv : Reachable (loadPort 0 0x01 State.reset) ∧ Reachable (after State.reset) :=
  ⟨.move (.load 0 0x01) .start rfl, .move .step .start rfl⟩
theorem witness_CanonicalMemoriesAreEqual :
    Memory.wf [(0, 0x01#8), (255, 0xFF#8)] = true ∧ Memory.wf [] = true := by decide
theorem witness_JeqAndJneAreComplements : (7#8).toNat = (7 : Fin 8).val := by decide
theorem witness_BranchFollowsCompare :
    (0#8).toNat = (0 : Fin 8).val ∧ (7#8).toNat = (7 : Fin 8).val ∧ (1#8).toNat = (1 : Fin 8).val := by decide
theorem witness_LdiThenPrnEmitsImmediate : (7#8).toNat ≤ 7 := by decide
theorem witness_PushThenPopCopies : (7#8).toNat = (7 : Fin 8).val ∧ (0#8).toNat = (0 : Fin 8).val := by decide
theorem witness_CallThenRetReturns :
    (7#8).toNat ≤ 7 ∧ ∃ t, exec (.call 7) State.reset = .next t ∧ t.regs[7] = t.regs[7] ∧
      t.mem.read (pushAddress State.reset) = t.mem.read (pushAddress State.reset) := ⟨by decide, _, rfl, rfl, rfl⟩
theorem witness_StackLayoutAfterReset : (List.replicate 255 (1#8 : Byte)).length ≤ 255 := by
  rw [List.length_replicate]
/-- `CALL R7` jumps onto the return address it pushed. -/
def callStart : State := start 0x10 [0x50, 0x07]
theorem witness_StoredByteIsFetchedNext_call :
    canStep callStart ∧ (7#8).toNat = (7 : Fin 8).val ∧ step callStart = .next (after callStart) ∧
      step (after callStart) = .next (after (after callStart)) ∧ (after callStart).pc = pushAddress callStart ∧
      fetchesInstr callStart (.call 7) := ⟨.inr rfl, rfl, rfl, rfl, by decide, rfl⟩
/-- PUSH R0 onto the address of the next instruction. -/
def pushStart : State := withX 7 0x13 (start 0x10 [0x45, 0x00])
theorem witness_StoredByteIsFetchedNext_push :
    canStep pushStart ∧ (0#8).toNat = (0 : Fin 8).val ∧ step pushStart = .next (after pushStart) ∧
      step (after pushStart) = .next (after (after pushStart)) ∧ (after pushStart).pc = pushAddress pushStart ∧
      fetchesInstr pushStart (.push 0) := ⟨.inr rfl, rfl, rfl, rfl, by decide, rfl⟩
/-- V59: `JMP R2` at 0x0C with x[2] = 0x0C. -/
def loopStart : State := withX 2 0x0C (start 0x0C [0x54, 0x02])
theorem witness_JumpToItselfNeverEnds :
    canStep loopStart ∧ fetchesInstr loopStart (.jmp 2) ∧ (2#8).toNat = (2 : Fin 8).val ∧
      loopStart.regs[(2 : Fin 8)] = loopStart.pc := ⟨.inr rfl, rfl, rfl, by decide⟩
theorem witness_LoadWritesOneByteInIdle : State.reset.runState = .idle ∧ haltedState.runState ≠ .idle := by decide
theorem witness_LoadedImageStandsFromZero :
    (List.replicate 256 (1#8 : Byte)).length ≤ 256 ∧ 256 < (List.replicate 257 (1#8 : Byte)).length := by
  rw [List.length_replicate, List.length_replicate]; decide
theorem witness_StatusAndExitStatus :
    State.reset.runState = .idle ∧ mulStart.runState = .running ∧ haltedState.runState = .halted ∧
      (after State.reset).runState = .faulted := by decide

end Sys2Proof.Tests
end

/-! ## State and invariants (spec file 10_state.md)

What `exec` and `step` can do is said once, by `exec_eq_next_iff` and by `step_cases`; the frames, the noninterference
statements and the invariant are read off those two. -/

namespace Sys2Proof.Machine

/-! ### The operand checks -/

/-- The fault of one register operand: the byte itself where it is above 7 (R109, R222). -/
def illegalByte (b : Byte) : Option Byte := if 7 < b.toNat then some b else none

theorem illegalByte_eq_some {b c : Byte} : illegalByte b = some c ↔ 7 < b.toNat ∧ b = c := by
  simp [illegalByte]

theorem illegalByte_eq_none {b : Byte} : illegalByte b = none ↔ b.toNat ≤ 7 := by
  simp [illegalByte]

/-- The byte that names a register is no fault. -/
theorem illegalByte_of_toNat_eq {b : Byte} (a : Fin Config.numRegs) (h : b.toNat = a.val) : illegalByte b = none :=
  illegalByte_eq_none.mpr (h ▸ Nat.le_of_lt_succ a.isLt)

theorem legalReg_iff (b : Byte) : legalReg b = true ↔ illegalByte b = none := by
  simp [legalReg, illegalByte_eq_none, Config.numRegs, Nat.lt_succ_iff]

/-- The register operands an instruction checks, in the order of the checks (R226). -/
def registerOperands : Instr → List Byte
  | .ldi opa _   => [opa]
  | .prn opa     => [opa]
  | .mul opa opb => [opa, opb]
  | .pop opa     => [opa]
  | .push opa    => [opa]
  | .call opa    => [opa]
  | .cmp opa opb => [opa, opb]
  | .jmp opa     => [opa]
  | .jne opa     => [opa]
  | .jeq opa     => [opa]
  | .hlt         => []
  | .ret         => []

theorem findSome?_cons_eq_or (f : Byte → Option Byte) (b : Byte) (bs : List Byte) :
    (b :: bs).findSome? f = (f b).or (bs.findSome? f) := by
  cases h : f b <;> simp [h]

/-- The illegal operand is the first of the checked operands that faults (R226). -/
theorem firstIllegalOperand_eq (i : Instr) : firstIllegalOperand i = (registerOperands i).findSome? illegalByte := by
  cases i <;> simp [firstIllegalOperand, registerOperands, findSome?_cons_eq_or, illegalByte]

theorem wellFormed_eq (i : Instr) : i.wellFormed = (registerOperands i).all legalReg := by
  cases i <;> simp [Instr.wellFormed, registerOperands]

/-- The well-formed instructions are those without an operand to fault on (R109, R222). -/
theorem wellFormed_iff (i : Instr) : i.wellFormed = true ↔ firstIllegalOperand i = none := by
  simp [wellFormed_eq, firstIllegalOperand_eq, legalReg_iff]

/-- The operand an instruction faults on is one of those it checks, and above 7 (R222). -/
theorem of_firstIllegalOperand {i : Instr} {b : Byte} (h : firstIllegalOperand i = some b) :
    b ∈ registerOperands i ∧ 7 < b.toNat := by
  rw [firstIllegalOperand_eq] at h
  obtain ⟨c, hc, hb⟩ := List.exists_of_findSome?_eq_some h
  obtain ⟨illegal, rfl⟩ := illegalByte_eq_some.mp hb
  exact ⟨hc, illegal⟩

/-! ### The decoder -/

/-- What decodes has one of the twelve opcode bytes (R111, R132), and checks no other byte than the two behind it (R134). -/
theorem of_decode {opc opa opb : Byte} {i : Instr} (h : decode opc opa opb = .ok i) :
    opc ∈ legalOpcodes ∧ registerOperands i ⊆ [opa, opb] := by
  unfold decode at h
  split at h <;> cases h <;> exact ⟨by decide, by simp [registerOperands]⟩

/-- A byte that is no opcode does not decode, and is named in the error (R132). -/
theorem decode_error_iff {opc opa opb : Byte} {e : DecodeError} :
    decode opc opa opb = .error e ↔ e = .unknownOpcode opc ∧ opc ∉ legalOpcodes := by
  unfold decode
  split <;> simp_all [legalOpcodes, eq_comm]

/-! ### What an instruction can do -/

theorem withRegs_legal (opa opb : Byte) (a b : Fin Config.numRegs) (effect) (s : State)
    (ha : opa.toNat = a.val) (hb : opb.toNat = b.val) : withRegs opa opb effect s = effect a b s := by
  rw [withRegs, withReg_legal opa a _ s ha, withReg_legal opb b _ s hb]

/-- A taken jump goes to the register, any other falls through (R194). -/
theorem jumpIf_eq (taken : Bool) (a : Fin Config.numRegs) (s : State) :
    jumpIf taken a s = setPc (if taken then readReg a s else s.pc + 2) s := by
  cases taken <;> rfl

/-- The effect of each row of the catalogue on legal operands, in terms of the named operations on the state. -/
inductive Completes : Instr → State → State → Prop where
  | ldi {opa imm s} (a : Fin Config.numRegs) (ha : opa.toNat = a.val) :
      Completes (.ldi opa imm) s (advancePc 3 (writeReg a imm s))
  | hlt {s} : Completes .hlt s (halt s)
  | prn {opa s} (a : Fin Config.numRegs) (ha : opa.toNat = a.val) :
      Completes (.prn opa) s (advancePc 2 (emit (readReg a s) s))
  | mul {opa opb s} (a b : Fin Config.numRegs) (ha : opa.toNat = a.val) (hb : opb.toNat = b.val) :
      Completes (.mul opa opb) s (advancePc 3 (writeReg a (mulLow (readReg a s) (readReg b s)) s))
  | pop {opa s} (a : Fin Config.numRegs) (ha : opa.toNat = a.val) :
      Completes (.pop opa) s (advancePc 2 (writeReg a (pop s).1 (pop s).2))
  | push {opa s} (a : Fin Config.numRegs) (ha : opa.toNat = a.val) :
      Completes (.push opa) s (advancePc 2 (push (readReg a s) s))
  | call {opa s} (a : Fin Config.numRegs) (ha : opa.toNat = a.val) :
      Completes (.call opa) s (setPc (readReg a (push (s.pc + 2) s)) (push (s.pc + 2) s))
  | ret {s} : Completes .ret s (setPc (pop s).1 (pop s).2)
  | cmp {opa opb s} (a b : Fin Config.numRegs) (ha : opa.toNat = a.val) (hb : opb.toNat = b.val) :
      Completes (.cmp opa opb) s (advancePc 3 (setFl (compareFlag (readReg a s) (readReg b s)) s))
  | jmp {opa s} (a : Fin Config.numRegs) (ha : opa.toNat = a.val) :
      Completes (.jmp opa) s (setPc (readReg a s) s)
  | jne {opa s} (a : Fin Config.numRegs) (ha : opa.toNat = a.val) :
      Completes (.jne opa) s (setPc (if !s.fl.isEq then readReg a s else s.pc + 2) s)
  | jeq {opa s} (a : Fin Config.numRegs) (ha : opa.toNat = a.val) :
      Completes (.jeq opa) s (setPc (if s.fl.isEq then readReg a s else s.pc + 2) s)

/-- All an instruction can do: fault on its first illegal operand, or complete. -/
inductive Executes (i : Instr) (s : State) : State → Prop where
  | fault {b : Byte} (first : firstIllegalOperand i = some b) : Executes i s (raise (.illegalOperand b) s)
  | completes {t : State} (legal : firstIllegalOperand i = none) (row : Completes i s t) : Executes i s t

/-- One register operand: the fault on the byte, or the row's effect on the register it names. -/
theorem executes_withReg {i : Instr} {opa : Byte} {effect : Fin Config.numRegs → State → State} {s : State}
    (checks : registerOperands i = [opa])
    (row : ∀ a : Fin Config.numRegs, opa.toNat = a.val → Completes i s (effect a s)) :
    Executes i s (withReg opa effect s) := by
  obtain ⟨illegal, h⟩ | ⟨a, ha, h⟩ := withReg_cases opa effect s <;> rw [h]
  · exact .fault (by simp [firstIllegalOperand_eq, checks, illegalByte, illegal])
  · exact .completes (by simp [firstIllegalOperand_eq, checks, illegalByte_of_toNat_eq a ha]) (row a ha)

/-- Two register operands: the fault on the first illegal byte, or the row's effect on the registers they name. -/
theorem executes_withRegs {i : Instr} {opa opb : Byte}
    {effect : Fin Config.numRegs → Fin Config.numRegs → State → State} {s : State}
    (checks : registerOperands i = [opa, opb])
    (row : ∀ a b : Fin Config.numRegs, opa.toNat = a.val → opb.toNat = b.val → Completes i s (effect a b s)) :
    Executes i s (withRegs opa opb effect s) := by
  obtain ⟨illegal, h⟩ | ⟨legal, illegal, h⟩ | ⟨a, b, ha, hb, h⟩ := withRegs_cases opa opb effect s <;> rw [h]
  · exact .fault (by simp [firstIllegalOperand_eq, checks, illegalByte, illegal])
  · exact .fault (by simp [firstIllegalOperand_eq, checks, illegalByte, illegal, legal.not_gt])
  · exact .completes 
      (by simp [firstIllegalOperand_eq, checks, illegalByte_of_toNat_eq a ha, illegalByte_of_toNat_eq b hb])
      (row a b ha hb)

/-- Every instruction answers a next state, and it is one that `Executes` allows. -/
theorem exec_executes (i : Instr) (s : State) : ∃ t, exec i s = .next t ∧ Executes i s t := by
  cases i with
  | ldi => exact ⟨_, rfl, executes_withReg rfl .ldi⟩
  | hlt => exact ⟨_, rfl, .completes rfl .hlt⟩
  | prn => exact ⟨_, rfl, executes_withReg rfl .prn⟩
  | mul => exact ⟨_, rfl, executes_withRegs rfl .mul⟩
  | pop => exact ⟨_, rfl, executes_withReg rfl .pop⟩
  | push => exact ⟨_, rfl, executes_withReg rfl .push⟩
  | call => exact ⟨_, rfl, executes_withReg rfl .call⟩
  | ret => exact ⟨_, rfl, .completes rfl .ret⟩
  | cmp => exact ⟨_, rfl, executes_withRegs rfl .cmp⟩
  | jmp => exact ⟨_, rfl, executes_withReg rfl .jmp⟩
  | jne => exact ⟨_, rfl, executes_withReg rfl fun a ha => jumpIf_eq _ a s ▸ .jne a ha⟩
  | jeq => exact ⟨_, rfl, executes_withReg rfl fun a ha => jumpIf_eq _ a s ▸ .jeq a ha⟩

/-- Where no operand is illegal, `exec` answers the state of the row. -/
theorem exec_of_completes {i : Instr} {s t : State} (row : Completes i s t) : exec i s = .next t := by
  cases row with
  | ldi a ha => exact congrArg Host.Outcome.next (withReg_legal _ a _ s ha)
  | hlt => rfl
  | prn a ha => exact congrArg Host.Outcome.next (withReg_legal _ a _ s ha)
  | mul a b ha hb => exact congrArg Host.Outcome.next (withRegs_legal _ _ a b _ s ha hb)
  | pop a ha => exact congrArg Host.Outcome.next (withReg_legal _ a _ s ha)
  | push a ha => exact congrArg Host.Outcome.next (withReg_legal _ a _ s ha)
  | call a ha => exact congrArg Host.Outcome.next (withReg_legal _ a _ s ha)
  | ret => rfl
  | cmp a b ha hb => exact congrArg Host.Outcome.next (withRegs_legal _ _ a b _ s ha hb)
  | jmp a ha => exact congrArg Host.Outcome.next (withReg_legal _ a _ s ha)
  | jne a ha => exact congrArg Host.Outcome.next ((withReg_legal _ a _ s ha).trans (jumpIf_eq _ a s))
  | jeq a ha => exact congrArg Host.Outcome.next ((withReg_legal _ a _ s ha).trans (jumpIf_eq _ a s))

theorem executes_of_exec {i : Instr} {s t : State} (h : exec i s = .next t) : Executes i s t := by
  obtain ⟨t', ht', h'⟩ := exec_executes i s
  cases ht'.symm.trans h
  exact h'

/-- An illegal operand decides the answer, whatever the row would do (R226). -/
theorem exec_of_firstIllegalOperand {i : Instr} {b : Byte} (s : State) (first : firstIllegalOperand i = some b) :
    exec i s = .next (raise (.illegalOperand b) s) := by
  obtain ⟨t, ht, h⟩ := exec_executes i s
  cases h with
  | fault first' => cases first'.symm.trans first; exact ht
  | completes legal => cases legal.symm.trans first

theorem exec_eq_next_iff {i : Instr} {s t : State} : exec i s = .next t ↔ Executes i s t where
  mp := executes_of_exec
  mpr
    | .fault first => exec_of_firstIllegalOperand s first
    | .completes _ row => exec_of_completes row

/-! ### Frames of the rows -/

namespace Completes

variable {i : Instr} {s t : State}

/-- R22: a row writes no register but those of the table. -/
theorem regs_eq (row : Completes i s t) {r : Fin 8} (unlisted : mayWriteReg i r = false) : t.regs[r] = s.regs[r] := by
  -- a register behind the row's writes is compared with the same indices as in the table
  cases row <;> simp_all [mayWriteReg, Fin.ext_iff, Vector.getElem_set, eq_comm (a := 7)]

/-- R28: CMP alone writes the flags, with the outcome of a compare. -/
theorem fl_eq (row : Completes i s t) : t.fl = s.fl ∨ ∃ opa opb x y, i = .cmp opa opb ∧ t.fl = compareFlag x y := by
  cases row
  case cmp a b ha hb => exact .inr ⟨_, _, _, _, rfl, rfl⟩
  all_goals exact .inl rfl

/-- R72, R170: memory is as it was, or one byte was pushed. -/
theorem mem_eq (row : Completes i s t) :
    t.mem = s.mem ∨ storesToMemory i = true ∧ ∃ v, t.mem = s.mem.write (pushAddress s) v := by
  cases row
  case push => exact .inr ⟨rfl, _, push_mem _ s⟩
  case call => exact .inr ⟨rfl, _, push_mem _ s⟩
  all_goals exact .inl rfl

/-- R35, R56: PRN alone appends to the output, the byte of its register. -/
theorem out_eq (row : Completes i s t) :
    t.out = s.out ∨ ∃ (opa : Byte) (a : Fin 8), i = .prn opa ∧ opa.toNat = a.val ∧ t.out = s.out ++ [s.regs[a]] := by
  cases row
  case prn a ha => exact .inr ⟨_, a, rfl, ha, rfl⟩
  all_goals exact .inl rfl

theorem latch_eq (row : Completes i s t) : t.latch = s.latch := by
  cases row <;> rfl

theorem faultCode_eq (row : Completes i s t) : t.faultCode = s.faultCode := by
  cases row <;> rfl

theorem faultInfo_eq (row : Completes i s t) : t.faultInfo = s.faultInfo := by
  cases row <;> rfl

/-- R193: HLT alone writes the run state. -/
theorem runState_eq (row : Completes i s t) : t.runState = if i = .hlt then .halted else s.runState := by
  cases row <;> rfl

theorem mem_wf (row : Completes i s t) (wf : s.mem.wf = true) : t.mem.wf = true := by
  obtain h | ⟨-, v, h⟩ := row.mem_eq <;> rw [h]
  · exact wf
  · exact Memory.wf_write _ _ v wf

end Completes

/-! ### What a step can do -/

theorem acceptsStep_iff (s : State) : s.runState.acceptsStep = true ↔ canStep s := by
  cases h : s.runState <;> simp [RunState.acceptsStep, canStep, h]

theorem step_of_canStep {s : State} (h : canStep s) : step s = dispatchLatched (fetched s) :=
  if_pos ((acceptsStep_iff s).mpr h)

theorem step_of_not_canStep {s : State} (h : ¬ canStep s) : step s = .next s :=
  if_neg (mt (acceptsStep_iff s).mp h)

/-- R130, R134: a step is the rule of the instruction whose bytes stand at `pc`. -/
theorem step_of_fetchesInstr {s : State} {i : Instr} (h : canStep s) (hi : fetchesInstr s i) :
    step s = exec i (fetched s) := by
  unfold fetchesInstr at hi
  simp only [step_of_canStep h, dispatchLatched, fetched, hi]

/-- R135: a step onto a byte that is no opcode faults on it. -/
theorem step_of_unknownOpcode {s : State} (h : canStep s) (hu : s.mem.read s.pc ∉ legalOpcodes) :
    step s = .next (raise (.unknownOpcode (s.mem.read s.pc)) (fetched s)) := by
  simp only [step_of_canStep h, dispatchLatched, fetched, decode_error_iff.mpr ⟨rfl, hu⟩]

/-- The byte at `pc` is no opcode, or the bytes there decode to an instruction. -/
theorem unknown_or_fetchesInstr (s : State) : s.mem.read s.pc ∉ legalOpcodes ∨ ∃ i, fetchesInstr s i := by
  cases hd : decode (s.mem.read s.pc) (s.mem.read (s.pc + 1)) (s.mem.read (s.pc + 2)) with
  | error e => exact .inl (decode_error_iff.mp hd).2
  | ok i => exact .inr ⟨i, hd⟩

/-- All a step can do: nothing in a final state, the fault on an unknown opcode, or the fetched instruction. -/
theorem step_cases {s t : State} (h : step s = .next t) :
    (¬ canStep s ∧ t = s) ∨
    (canStep s ∧ s.mem.read s.pc ∉ legalOpcodes ∧ t = raise (.unknownOpcode (s.mem.read s.pc)) (fetched s)) ∨
    (canStep s ∧ ∃ i, fetchesInstr s i ∧ Executes i (fetched s) t) := by
  by_cases hs : canStep s
  · obtain hu | ⟨i, hi⟩ := unknown_or_fetchesInstr s
    · cases (step_of_unknownOpcode hs hu).symm.trans h
      exact .inr (.inl ⟨hs, hu, rfl⟩)
    · exact .inr (.inr ⟨hs, i, hi, executes_of_exec ((step_of_fetchesInstr hs hi).symm.trans h)⟩)
  · cases (step_of_not_canStep hs).symm.trans h
    exact .inl ⟨hs, rfl⟩

/-! ### The invariant -/

namespace Inv

variable {s t : State}

/-- Before the run has ended no fault is recorded. -/
theorem faultCode_of_canStep (inv : Inv s) (hs : canStep s) : s.faultCode = 0#2 := by
  by_contra hc
  have hf : s.runState = .faulted := inv.codeIffFaulted.mp hc
  simp [canStep, hf] at hs

theorem faultInfo_of_canStep (inv : Inv s) (hs : canStep s) : s.faultInfo = 0#8 :=
  inv.infoClear (inv.faultCode_of_canStep hs)

/-- A started run without a fault needs of the invariant its memory clause alone. -/
theorem of_no_fault (memCanonical : t.mem.wf = true) (hc : t.faultCode = 0#2) (hi : t.faultInfo = 0#8)
    (hr : t.runState = .running ∨ t.runState = .halted) : Inv t where
  memCanonical := memCanonical
  codeIffFaulted := by obtain hr | hr := hr <;> simp [hc, hr]
  infoClear _ := hi
  neverAluUnsupported := by simp [hc]
  unknownOpcode h := by simp [hc] at h
  illegalOperand h := by simp [hc] at h
  idleAsReset h := by obtain hr | hr := hr <;> simp [hr] at h

/-- A row on a fetched state leads to a state without a fault. -/
theorem of_completes {i : Instr} (inv : Inv s) (hs : canStep s) (row : Completes i (fetched s) t) : Inv t := by
  refine of_no_fault (row.mem_wf inv.memCanonical) (row.faultCode_eq.trans (inv.faultCode_of_canStep hs))
    (row.faultInfo_eq.trans (inv.faultInfo_of_canStep hs)) ?_
  rw [row.runState_eq]
  split
  · exact .inr rfl
  · exact .inl rfl

theorem raise_unknownOpcode (inv : Inv s) (hu : s.mem.read s.pc ∉ legalOpcodes) :
    Inv (raise (.unknownOpcode (s.mem.read s.pc)) (fetched s)) where
  memCanonical := inv.memCanonical
  codeIffFaulted := by simp [Fault.code]
  infoClear h := by simp [Fault.code] at h
  neverAluUnsupported := by simp [Fault.code]
  unknownOpcode _ := ⟨hu, rfl⟩
  illegalOperand h := by simp [Fault.code] at h
  idleAsReset h := by cases h

theorem raise_illegalOperand {i : Instr} {b : Byte} (inv : Inv s) (hi : fetchesInstr s i)
    (first : firstIllegalOperand i = some b) : Inv (raise (.illegalOperand b) (fetched s)) where
  memCanonical := inv.memCanonical
  codeIffFaulted := by simp [Fault.code]
  infoClear h := by simp [Fault.code] at h
  neverAluUnsupported := by simp [Fault.code]
  unknownOpcode h := by simp [Fault.code] at h
  illegalOperand _ := by
    obtain ⟨opcode, checked⟩ := of_decode hi
    obtain ⟨hb, illegal⟩ := of_firstIllegalOperand first
    have stands : b = s.mem.read (s.pc + 1) ∨ b = s.mem.read (s.pc + 2) := by simpa using checked hb
    exact ⟨illegal, opcode, stands.imp Eq.symm Eq.symm⟩
  idleAsReset h := by cases h

end Inv

/-- Settles O37: a step stands still, faults on an unknown opcode, or executes. -/
theorem stepKeepsInv : Obligations.StepKeepsInv := by
  intro s t inv h
  obtain ⟨-, rfl⟩ | ⟨-, hu, rfl⟩ | ⟨hs, i, hi, hx⟩ := step_cases h
  · exact inv
  · exact inv.raise_unknownOpcode hu
  · cases hx with
    | fault first => exact inv.raise_illegalOperand hi first
    | completes _ row => exact inv.of_completes hs row

/-- Settles O7. -/
theorem resetMeetsInv : Obligations.ResetMeetsInv where
  memCanonical := rfl
  codeIffFaulted := by decide
  infoClear _ := rfl
  neverAluUnsupported := by decide
  unknownOpcode h := by cases h
  illegalOperand h := by cases h
  idleAsReset _ := rfl

/-- Settles O6. -/
theorem resetValues : Obligations.ResetValues :=
  ⟨by decide, rfl, rfl, fun _ => rfl, rfl, rfl, rfl, rfl⟩

/-! ### The run, the latches and the output -/

/-- A state that a step leaves alone is the answer of every run from it. -/
theorem run_of_step_eq {s : State} (h : step s = .next s) (k : Nat) : Host.Core.run Sys2Proof.core k s = .next s := by
  induction k with
  | zero => rfl
  | succ k ih =>
    have hstep : Sys2Proof.core.step s = .next s := h
    simp only [Host.Core.run, hstep, ih]

/-- Settles O12: no step request is accepted in a final state. -/
theorem finalStatesNeverChange : Obligations.FinalStatesNeverChange := by
  intro s k final
  have hs : ¬ canStep s := by obtain h | h := final <;> simp [canStep, h]
  exact run_of_step_eq (step_of_not_canStep hs) k

theorem Executes.latch_eq {i : Instr} {s t : State} (hx : Executes i s t) : t.latch = s.latch := by
  cases hx with
  | fault => rfl
  | completes _ row => exact row.latch_eq

/-- Settles O13: the fetch overwrites the latches, and nothing after it writes them. -/
theorem stepIgnoresOldLatches : Obligations.StepIgnoresOldLatches := by
  intro s t old hs h
  constructor
  · obtain ⟨hn, -⟩ | ⟨-, -, rfl⟩ | ⟨-, i, -, hx⟩ := step_cases h
    · exact absurd hs hn
    · rfl
    · exact hx.latch_eq
  · have same : fetched { s with latch := old } = fetched s := rfl
    rwa [step_of_canStep (s := { s with latch := old }) hs, same, ← step_of_canStep hs]

/-- `f`, which leads from `s` to `t`, appends at most one byte to the output, and with output `o` before it appends the same
byte and does the same otherwise. -/
def AppendsAlike (f : State → Host.Outcome State Fault Refusal) (s t : State) (o : List Byte) : Prop :=
  ∃ emitted, emitted.length ≤ 1 ∧ t.out = s.out ++ emitted ∧
    f { s with out := o } = .next { t with out := o ++ emitted }

/-- What emits nothing has only to do the same with the other output. -/
theorem AppendsAlike.of_silent {f : State → Host.Outcome State Fault Refusal} {s t : State} {o : List Byte}
    (hout : t.out = s.out) (h : f { s with out := o } = .next { t with out := o }) : AppendsAlike f s t o :=
  ⟨[], Nat.zero_le _, by rw [hout, List.append_nil], by rwa [List.append_nil]⟩

/-- No row reads the output. -/
theorem Completes.appendsAlike {i : Instr} {s t : State} (o : List Byte) (row : Completes i s t) :
    AppendsAlike (exec i) s t o := by
  cases row with
  | prn a ha => exact ⟨[readReg a s], Nat.le_refl _, rfl, exec_of_completes (.prn a ha)⟩
  | ldi a ha => exact .of_silent rfl (exec_of_completes (.ldi a ha))
  | hlt => exact .of_silent rfl (exec_of_completes .hlt)
  | mul a b ha hb => exact .of_silent rfl (exec_of_completes (.mul a b ha hb))
  | pop a ha => exact .of_silent rfl (exec_of_completes (.pop a ha))
  | push a ha => exact .of_silent rfl (exec_of_completes (.push a ha))
  | call a ha => exact .of_silent rfl (exec_of_completes (.call a ha))
  | ret => exact .of_silent rfl (exec_of_completes .ret)
  | cmp a b ha hb => exact .of_silent rfl (exec_of_completes (.cmp a b ha hb))
  | jmp a ha => exact .of_silent rfl (exec_of_completes (.jmp a ha))
  | jne a ha => exact .of_silent rfl (exec_of_completes (.jne a ha))
  | jeq a ha => exact .of_silent rfl (exec_of_completes (.jeq a ha))

theorem Executes.appendsAlike {i : Instr} {s t : State} (o : List Byte) (hx : Executes i s t) :
    AppendsAlike (exec i) s t o := by
  cases hx with
  | fault first => exact .of_silent rfl (exec_of_firstIllegalOperand _ first)
  | completes _ row => exact row.appendsAlike o

/-- Settles O14: neither the fetch nor the rule of an instruction reads the output. -/
theorem stepNeverReadsOutput : Obligations.StepNeverReadsOutput := by
  intro s t o h
  obtain ⟨hs, rfl⟩ | ⟨hs, hu, rfl⟩ | ⟨hs, i, hi, hx⟩ := step_cases h
  · exact AppendsAlike.of_silent rfl (step_of_not_canStep hs)
  · exact AppendsAlike.of_silent rfl (step_of_unknownOpcode hs hu)
  · obtain ⟨emitted, short, hout, same⟩ := hx.appendsAlike o
    exact ⟨emitted, short, hout, (step_of_fetchesInstr (s := { s with out := o }) hs hi).trans same⟩

/-! ### Frames of the instructions -/

/-- Settles O27: a fault writes no register, and a row those of the table. -/
theorem onlyListedRegistersChange : Obligations.OnlyListedRegistersChange := by
  intro i s t r h unlisted
  cases executes_of_exec h with
  | fault => rfl
  | completes _ row => exact row.regs_eq unlisted

/-- The flags after an instruction: as they were, or the outcome of a compare. -/
theorem Executes.fl_eq {i : Instr} {s t : State} (hx : Executes i s t) :
    t.fl = s.fl ∨ ∃ opa opb x y, i = .cmp opa opb ∧ t.fl = compareFlag x y := by
  cases hx with
  | fault => exact .inl rfl
  | completes _ row => exact row.fl_eq

/-- Settles O28. -/
theorem onlyCmpChangesFlags : Obligations.OnlyCmpChangesFlags := by
  intro i s t h notCmp
  obtain hfl | ⟨opa, opb, x, y, rfl, -⟩ := (executes_of_exec h).fl_eq
  · exact hfl
  · exact absurd rfl (notCmp opa opb)

/-- Settles O30. -/
theorem onlyPrnEmits : Obligations.OnlyPrnEmits := by
  intro i s t h
  cases executes_of_exec h with
  | fault => exact .inl rfl
  | completes _ row => exact row.out_eq

/-- Settles O31: the well-formed instructions are those that complete. -/
theorem onlyHltAndFaultsEndTheRun : Obligations.OnlyHltAndFaultsEndTheRun := by
  intro i s t h
  have hx := executes_of_exec h
  refine ⟨hx.latch_eq, ?_⟩
  cases hx with
  | fault first =>
    have illFormed : i.wellFormed = false := by simp [← Bool.not_eq_true, wellFormed_iff, first]
    exact .inr ⟨illFormed, rfl, rfl, (of_firstIllegalOperand first).2⟩
  | completes legal row =>
    exact .inl ⟨(wellFormed_iff i).mpr legal, row.runState_eq, row.faultCode_eq, row.faultInfo_eq⟩

/-! ### The flags -/

/-- A compare has an outcome (R27, R152). -/
theorem compareFlag_ne_none (x y : Byte) : compareFlag x y ≠ .none := by
  unfold compareFlag
  split
  · decide
  · split <;> decide

theorem Executes.fl_eq_none_before {i : Instr} {s t : State} (hx : Executes i s t) (none_after : t.fl = .none) :
    s.fl = .none := by
  obtain hfl | ⟨-, -, x, y, -, hfl⟩ := hx.fl_eq
  · exact hfl ▸ none_after
  · exact absurd (hfl ▸ none_after) (compareFlag_ne_none x y)

/-- With both operands legal, CMP leaves the outcome of a compare. -/
theorem fl_ne_none_of_cmp {opa opb : Byte} {s t : State} (h : exec (.cmp opa opb) s = .next t)
    (ha : opa.toNat ≤ 7) (hb : opb.toNat ≤ 7) : t.fl ≠ .none := by
  cases executes_of_exec h with
  | fault first =>
    obtain ⟨checked, illegal⟩ := of_firstIllegalOperand first
    simp only [registerOperands, List.mem_cons, List.not_mem_nil, or_false] at checked
    obtain rfl | rfl := checked <;> omega
  | completes _ row =>
    cases row
    exact compareFlag_ne_none _ _

/-- Settles O35. -/
theorem flagsNeverReturnToNone : Obligations.FlagsNeverReturnToNone := by
  refine ⟨rfl, fun i s t h => (executes_of_exec h).fl_eq_none_before, fun s t h none_after => ?_,
    fun _ _ _ _ => fl_ne_none_of_cmp⟩
  obtain ⟨-, rfl⟩ | ⟨-, -, rfl⟩ | ⟨-, i, -, hx⟩ := step_cases h
  · exact none_after
  · exact none_after
  · exact hx.fl_eq_none_before none_after

/-- The flags a bit pattern of R29 stands for, `NONE` where it is none of the four. -/
def Flag.ofBits (p : BitVec 3) : Flag :=
  if p = 0b001#3 then .eq else if p = 0b010#3 then .gt else if p = 0b100#3 then .lt else .none

theorem Flag.ofBits_bits (f : Flag) : Flag.ofBits f.bits = f := by
  cases f <;> decide

theorem Flag.bits_injective : Function.Injective Flag.bits :=
  Function.LeftInverse.injective Flag.ofBits_bits

/-- Settles O52. -/
theorem flagBitPatterns : Obligations.FlagBitPatterns := by
  refine ⟨rfl, rfl, rfl, rfl, fun _ _ h => Flag.bits_injective h, fun f => ?_⟩
  cases f <;> decide

/-! ### The canonical form of memory -/

theorem Memory.wfFrom_cons_iff {lo k : Nat} {v : Byte} {rest : Memory} :
    Memory.wfFrom lo ((k, v) :: rest) = true ↔
      lo ≤ k ∧ k < Config.memSize ∧ v ≠ Config.cellReset ∧ rest.wfFrom (k + 1) = true := by
  simp only [Memory.wfFrom, Bool.and_eq_true, decide_eq_true_eq, and_assoc]

theorem Memory.read_cons (k : Nat) (v : Byte) (rest : Memory) (a : Byte) :
    Memory.read ((k, v) :: rest) a = if k = a.toNat then v else rest.read a := rfl

theorem Memory.toNat_ofNat_address {k : Nat} (hk : k < Config.memSize) : (BitVec.ofNat 8 k).toNat = k :=
  Nat.mod_eq_of_lt hk

/-- The first listed cell is found at its own address. -/
theorem Memory.read_head {k : Nat} (hk : k < Config.memSize) (v : Byte) (rest : Memory) :
    Memory.read ((k, v) :: rest) (BitVec.ofNat 8 k) = v := by
  rw [Memory.read_cons, Memory.toNat_ofNat_address hk, if_pos rfl]

/-- A canonical memory tells its first cell from any memory that lists none so low. -/
theorem Memory.read_head_ne {lo k : Nat} {v : Byte} {rest m : Memory}
    (wf : Memory.wfFrom lo ((k, v) :: rest) = true) (above : m.wfFrom (k + 1) = true) :
    Memory.read ((k, v) :: rest) (BitVec.ofNat 8 k) ≠ m.read (BitVec.ofNat 8 k) := by
  obtain ⟨-, hk, hv, -⟩ := wfFrom_cons_iff.mp wf
  have below : (BitVec.ofNat 8 k).toNat < k + 1 := (toNat_ofNat_address hk).trans_lt k.lt_succ_self
  rw [read_head hk, read_below m (k + 1) above _ below]
  exact hv

/-- What stands behind an equal first address reads alike where the whole does. -/
theorem Memory.tail_reads_alike {k : Nat} {v w : Byte} {m n : Memory} (wfm : m.wfFrom (k + 1) = true)
    (wfn : n.wfFrom (k + 1) = true) (alike : ∀ a, Memory.read ((k, v) :: m) a = Memory.read ((k, w) :: n) a) (a : Byte) :
    m.read a = n.read a := by
  by_cases ha : k = a.toNat
  · rw [read_below m (k + 1) wfm a (by omega), read_below n (k + 1) wfn a (by omega)]
  · simpa only [read_cons, if_neg ha] using alike a

/-- Canonical forms that read alike have the same first cell, and the same rest by induction. -/
theorem Memory.eq_of_reads_alike {lo lo' : Nat} {m n : Memory} (wfm : m.wfFrom lo = true) (wfn : n.wfFrom lo' = true)
    (alike : ∀ a, m.read a = n.read a) : m = n := by
  induction m generalizing lo lo' n with
  | nil =>
    cases n with
    | nil => rfl
    | cons c n => exact absurd (alike _).symm (read_head_ne wfn rfl)
  | cons c m ih =>
    obtain ⟨j, v⟩ := c
    cases n with
    | nil => exact absurd (alike _) (read_head_ne wfm rfl)
    | cons d n =>
      obtain ⟨k, w⟩ := d
      obtain ⟨-, hj, hv, hm⟩ := wfFrom_cons_iff.mp wfm
      obtain ⟨-, hk, hw, hn⟩ := wfFrom_cons_iff.mp wfn
      obtain hjk | rfl | hkj := lt_trichotomy j k
      · exact absurd (alike _) (read_head_ne wfm (wfFrom_cons_iff.mpr ⟨hjk, hk, hw, hn⟩))
      · have hvw : v = w := by simpa only [read_head hj] using alike (BitVec.ofNat 8 j)
        rw [hvw, ih hm hn (tail_reads_alike hm hn alike)]
      · exact absurd (alike _).symm (read_head_ne wfn (wfFrom_cons_iff.mpr ⟨hkj, hj, hv, hm⟩))

/-- Settles O39. -/
theorem canonicalMemoriesAreEqual : Obligations.CanonicalMemoriesAreEqual :=
  fun _ _ wfm wfn alike => Memory.eq_of_reads_alike wfm wfn alike

end Sys2Proof.Machine

/-! ## Ports and console (spec file 15_interfaces.md)

The states before the first step are the reset state with some memory, so what the reset and load ports keep is said of
those; what a load does to memory is read off `Memory.read_write`. -/

namespace Sys2Proof.Machine

/-! ### The reset and load ports -/

/-- R52: in `IDLE` the load port is a write to memory. -/
theorem loadPort_of_idle {s : State} (idle : s.runState = .idle) (addr data : Byte) :
    loadPort addr data s = memWrite addr data s := by
  simp only [loadPort, idle]

/-- R52, D15: outside `IDLE` the load port does nothing. -/
theorem loadPort_of_not_idle {s : State} (started : s.runState ≠ .idle) (addr data : Byte) :
    loadPort addr data s = s := by
  cases h : s.runState with
  | idle => exact absurd h started
  | running | halted | faulted => simp only [loadPort, h]

/-- R59: before the first step any canonical memory is one the host can have loaded. -/
theorem Inv.reset_with_mem {m : Memory} (wf : m.wf = true) : Inv { State.reset with mem := m } where
  memCanonical := wf
  codeIffFaulted := resetMeetsInv.codeIffFaulted
  infoClear _ := rfl
  neverAluUnsupported := resetMeetsInv.neverAluUnsupported
  unknownOpcode h := by cases h
  illegalOperand h := by cases h
  idleAsReset _ := rfl

theorem Inv.loadPort {s : State} (inv : Inv s) (addr data : Byte) : Inv (loadPort addr data s) := by
  by_cases idle : s.runState = .idle
  · rw [loadPort_of_idle idle, inv.idleAsReset idle]
    exact reset_with_mem (Memory.wf_write _ addr data inv.memCanonical)
  · rwa [loadPort_of_not_idle idle]

/-- Settles O54: reset starts over, a load writes one cell in `IDLE`, and a step is O37. -/
theorem portTransactionsKeepInv : Obligations.PortTransactionsKeepInv := by
  intro m s t inv moved
  cases m with
  | reset => cases moved; exact resetMeetsInv
  | load addr data => cases moved; exact inv.loadPort addr data
  | step => exact stepKeepsInv s t inv moved

/-- Settles O38, by induction on the transactions. -/
theorem reachableStatesMeetInv : Obligations.ReachableStatesMeetInv := by
  intro s reached
  induction reached with
  | start => exact resetMeetsInv
  | move m _ moved inv => exact portTransactionsKeepInv m _ _ inv moved

/-- Settles O48. -/
theorem loadWritesOneByteInIdle : Obligations.LoadWritesOneByteInIdle :=
  fun addr data s =>
    ⟨fun idle => ⟨s.mem.write addr data, loadPort_of_idle idle addr data, Memory.read_write s.mem addr data⟩,
      fun started => loadPort_of_not_idle started addr data⟩

/-! ### Loading an image -/

/-- R52: loading an image in `IDLE` changes memory alone. -/
theorem loadFrom_eq_with_mem {s : State} (idle : s.runState = .idle) (addr : Byte) (image : List Byte) :
    loadFrom addr image s = { s with mem := (loadFrom addr image s).mem } := by
  induction image generalizing addr s with
  | nil => rfl
  | cons b rest ih =>
    rw [loadFrom, loadPort_of_idle idle]
    exact ih (s := memWrite addr b s) idle (addr + 1)

/-- R52: an image that fits stands from `addr` on, around the end of memory if it reaches so far, and every other cell is
as it was. -/
theorem read_loadFrom {s : State} (idle : s.runState = .idle) (addr : Byte) (image : List Byte)
    (fits : image.length ≤ Config.memSize) (x : Byte) :
    (loadFrom addr image s).mem.read x = image.getD (x - addr).toNat (s.mem.read x) := by
  induction image generalizing addr s with
  | nil => rfl
  | cons b rest ih =>
    have short : rest.length < 256 := fits
    rw [loadFrom, loadPort_of_idle idle, ih (s := memWrite addr b s) idle (addr + 1) short.le, memWrite_mem,
      Memory.read_write]
    by_cases hx : x = addr
    · -- the rest would come round to `addr` only as byte 255, which it does not have
      have behind : rest.length ≤ (x - (addr + 1)).toNat := by bv_omega
      rw [List.getD_eq_default _ _ behind]
      simp [hx]
    · have later : (x - addr).toNat = (x - (addr + 1)).toNat + 1 := by bv_omega
      rw [later, List.getD_cons_succ, if_neg hx]

/-- Settles O49. -/
theorem loadedImageStandsFromZero : Obligations.LoadedImageStandsFromZero := by
  intro image
  constructor
  · intro fits
    refine ⟨loadFrom 0#8 image State.reset, if_pos fits, loadFrom_eq_with_mem rfl _ _, fun a => ?_⟩
    rw [read_loadFrom rfl 0#8 image fits, BitVec.sub_zero]
    rfl
  · intro tooLong
    exact if_neg tooLong.not_ge

/-! ### The console -/

theorem renderOut_eq_flatMap (out : List Byte) : renderOut out = out.flatMap renderByte := by
  induction out with
  | nil => rfl
  | cons v rest ih => rw [renderOut, ih, List.flatMap_cons]

/-- A decimal numeral that begins with 0 is that of 0: the digits before the last are a numeral themselves. -/
theorem toDigits_eq_zero_of_head {n : Nat} (h : (Nat.toDigits 10 n).head? = some '0') : Nat.toDigits 10 n = ['0'] := by
  induction n using Nat.strongRecOn with
  | ind n ih =>
    by_cases small : n < 10
    · rw [Nat.toDigits_of_lt_base small] at h ⊢
      exact congrArg (fun c => [c]) (Option.some.inj h)
    · rw [Nat.toDigits_of_base_le (by decide) (Nat.le_of_not_lt small),
        List.head?_append_of_ne_nil _ Nat.toDigits_ne_nil] at h
      have front : Nat.toDigits 10 (n / 10) = ['0'] := ih (n / 10) (by omega) h
      have value : n / 10 = 0 := calc
        n / 10 = Nat.ofDigitChars 10 (Nat.toDigits 10 (n / 10)) 0 := Nat.ofDigitChars_ten_toDigits.symm
        _ = 0 := by rw [front]; rfl
      omega

/-- Settles O51, with the numeral that `Nat.toDigits` gives. -/
theorem consoleRendersDecimal : Obligations.ConsoleRendersDecimal := by
  refine fun out v => ⟨Nat.toDigits 10 v.toNat, ?_, Nat.toDigits_ne_nil, fun c hc => ?_, ?_, toDigits_eq_zero_of_head⟩
  · simp [renderOut_eq_flatMap, renderByte]
  · exact Nat.isDigit_of_mem_toDigits (by decide) (by decide) hc
  · exact Nat.ofDigitChars_eq_foldl.symm.trans Nat.ofDigitChars_ten_toDigits

/-- Settles O42. -/
theorem ldiThenPrnEmitsImmediate : Obligations.LdiThenPrnEmitsImmediate := by
  intro opa imm s legal
  obtain ⟨a, ha⟩ : ∃ a : Fin Config.numRegs, opa.toNat = a.val := ⟨⟨opa.toNat, Nat.lt_succ_of_le legal⟩, rfl⟩
  refine ⟨_, _, exec_of_completes (.ldi a ha), exec_of_completes (.prn a ha), ?_, ?_⟩
  · simp
  · simp [BitVec.add_assoc]

/-! ### The status port -/

theorem exitStatus_of_halted {s : State} (h : s.runState = .halted) : exitStatus s = some 0 := by
  simp only [exitStatus, h]

theorem exitStatus_of_faulted {s : State} (h : s.runState = .faulted) : exitStatus s = some s.faultCode.toNat := by
  simp only [exitStatus, h]

/-- The status port shows the code of the run state and the fault record (R54). -/
theorem status_of_runState {s : State} {r : RunState} (h : s.runState = r) :
    status s = ⟨r.code, s.faultCode, s.faultInfo⟩ := by
  rw [status, h]

/-- Settles O50. -/
theorem statusAndExitStatus : Obligations.StatusAndExitStatus :=
  fun _ => ⟨status_of_runState, status_of_runState,
    fun h => ⟨status_of_runState h, exitStatus_of_halted h⟩,
    fun h => ⟨status_of_runState h, exitStatus_of_faulted h⟩⟩

end Sys2Proof.Machine

/-! ## Memory (spec file 20_memory.md)

What a row does to memory is said by `Completes.mem_eq`; a byte it stored is read back by `Memory.read_write`. -/

namespace Sys2Proof.Machine

/-- Settles O29: a fault leaves memory alone, and a row writes at most the pushed byte. -/
theorem onlyPushedByteChanges : Obligations.OnlyPushedByteChanges := by
  intro i s t x h elsewhere
  cases executes_of_exec h with
  | fault => rfl
  | completes _ row =>
    obtain same | ⟨stores, v, pushed⟩ := row.mem_eq
    · rw [same]
    · have apart : x ≠ pushAddress s := elsewhere.resolve_left (by simp [stores])
      rw [pushed, Memory.read_write_other _ _ _ _ apart]

/-- R131: the opcode latch after a step holds the byte that stood at `pc` before it. -/
theorem latch_opc_of_step {s t : State} (hs : canStep s) (h : step s = .next t) : t.latch.opc = s.mem.read s.pc :=
  congrArg Latches.opc (stepIgnoresOldLatches s t s.latch hs h).1

/-- R83: a running core whose `pc` is the address `s` pushed to latches the pushed byte as its next opcode. -/
theorem latch_opc_of_pushed {s t u : State} {v : Byte} (h : step t = .next u) (running : t.runState = .running)
    (hpc : t.pc = pushAddress s) (pushed : t.mem = s.mem.write (pushAddress s) v) : u.latch.opc = v := by
  rw [latch_opc_of_step (.inr running) h, pushed, hpc, Memory.read_write_same]

/-- A step with a legal instruction at `pc` leads to the state of its row. -/
theorem eq_of_step_of_completes {i : Instr} {s t t' : State} (hs : canStep s) (hi : fetchesInstr s i)
    (row : Completes i (fetched s) t') (h : step s = .next t) : t = t' := by
  rw [step_of_fetchesInstr hs hi, exec_of_completes row] at h
  exact (Host.Outcome.next.inj h).symm

/-- Settles O46: the first step keeps the core running, with the pushed byte stored where the second one fetches. -/
theorem storedByteIsFetchedNext : Obligations.StoredByteIsFetchedNext := by
  intro s t u opa a hs ha h h' hpc
  constructor <;> intro hi
  · obtain rfl := eq_of_step_of_completes hs hi (.push a ha) h
    exact latch_opc_of_pushed h' rfl hpc (push_mem _ (fetched s))
  · obtain rfl := eq_of_step_of_completes hs hi (.call a ha) h
    exact latch_opc_of_pushed h' rfl hpc (push_mem _ (fetched s))

end Sys2Proof.Machine

/-! ## Encoding (spec file 30_encoding.md)

The catalogue of R106 is read through one fact per direction, `decode_of_encode_prefix` and `encode_prefix_of_decode`; the
lengths come from the statements of `Laws.EncodedLength`. A line of a program file is taken apart in the order the reader
does it: comment, white space, numeral. -/

namespace Sys2Proof.Machine

/-! ### Decoding and encoding -/

/-- R100 to R104, R110: of the three fetched bytes the encoding fixes the opcode and the operands its format has, and those
are all that the opcode's row of the decoder looks at. -/
theorem decode_of_encode_prefix {i : Instr} {opc opa opb : Byte} (h : encode i <+: [opc, opa, opb]) :
    decode opc opa opb = .ok i := by
  cases i <;> simp only [encode, List.cons_prefix_cons] at h
  case hlt | ret =>
    obtain ⟨rfl, -⟩ := h
    rfl
  case prn | pop | push | call | jmp | jne | jeq =>
    obtain ⟨rfl, rfl, -⟩ := h
    rfl
  case ldi | mul | cmp =>
    obtain ⟨rfl, rfl, rfl, -⟩ := h
    rfl

/-- R100 to R106: each row of the decoder answers an instruction made of the bytes it was given. -/
theorem encode_prefix_of_decode {i : Instr} {opc opa opb : Byte} (h : decode opc opa opb = .ok i) :
    encode i <+: [opc, opa, opb] := by
  unfold decode at h
  split at h <;> cases h <;> simp [encode, List.cons_prefix_cons]

/-- Settles O1. -/
theorem decodeReadsBackEncode : Obligations.DecodeReadsBackEncode :=
  fun _ _ _ _ => decode_of_encode_prefix

/-- Settles O2. -/
theorem encodeReadsBackDecode : Obligations.EncodeReadsBackDecode :=
  fun _ _ _ _ => encode_prefix_of_decode

/-! ### The opcode byte -/

/-- R105, R106: the opcode byte of every instruction gives its length. -/
theorem encodedLength (i : Instr) : Laws.EncodedLength.Statement i := by
  cases i with
  | ldi opa imm => exact Laws.EncodedLength.ldi opa imm
  | hlt => exact Laws.EncodedLength.hlt
  | prn opa => exact Laws.EncodedLength.prn opa
  | mul opa opb => exact Laws.EncodedLength.mul opa opb
  | pop opa => exact Laws.EncodedLength.pop opa
  | push opa => exact Laws.EncodedLength.push opa
  | call opa => exact Laws.EncodedLength.call opa
  | ret => exact Laws.EncodedLength.ret
  | cmp opa opb => exact Laws.EncodedLength.cmp opa opb
  | jmp opa => exact Laws.EncodedLength.jmp opa
  | jne opa => exact Laws.EncodedLength.jne opa
  | jeq opa => exact Laws.EncodedLength.jeq opa

/-- R105: what three bytes decode to is as long as their first byte says. -/
theorem opcodeLength_of_decode {i : Instr} {opc opa opb : Byte} (h : decode opc opa opb = .ok i) :
    opcodeLength opc = some (encode i).length := by
  obtain ⟨first, operands, bytes, length⟩ := encodedLength i
  have same := encode_prefix_of_decode h
  rw [bytes, List.cons_prefix_cons] at same
  exact same.1 ▸ length

/-- R105, R111: a byte outside the twelve has no length. -/
theorem opcodeLength_of_unknown {opc : Byte} (unknown : opc ∉ legalOpcodes) : opcodeLength opc = none := by
  unfold opcodeLength
  split <;> simp_all [legalOpcodes]

/-- R132: a legal opcode byte decodes, whatever the operand bytes. -/
theorem exists_decode_of_legal {opc : Byte} (legal : opc ∈ legalOpcodes) (opa opb : Byte) :
    ∃ i, decode opc opa opb = .ok i := by
  cases h : decode opc opa opb with
  | ok i => exact ⟨i, rfl⟩
  | error e => exact absurd legal (decode_error_iff.mp h).2

/-- Settles O3. -/
theorem opcodeByteAloneDecides : Obligations.OpcodeByteAloneDecides := by
  intro opc opa opb
  constructor
  · intro legal
    obtain ⟨i, hi⟩ := exists_decode_of_legal legal opa opb
    exact ⟨i, hi, opcodeLength_of_decode hi⟩
  · intro unknown
    exact ⟨decode_error_iff.mpr ⟨rfl, unknown⟩, opcodeLength_of_unknown unknown⟩

/-- Settles O4. -/
theorem catalogueWordsDecode : Obligations.CatalogueWordsDecode :=
  ⟨rfl, rfl, rfl, rfl, rfl, rfl, rfl, rfl⟩

/-! The regularities of R107, each read off the twelve opcodes. -/

section OpcodeBits

variable {i : Instr} {opc : Byte} {operands : List Byte}

theorem opcode_bits_seven_six (h : encode i = opc :: operands) : (opc.extractLsb' 6 2).toNat = operands.length := by
  cases i <;> cases h <;> rfl

theorem opcode_bit_five (h : encode i = opc :: operands) :
    opc.getLsbD 5 = true ↔ ∃ opa opb, i = .mul opa opb ∨ i = .cmp opa opb := by
  cases i <;> cases h <;> simp

theorem opcode_bit_four (h : encode i = opc :: operands) :
    opc.getLsbD 4 = true ↔ i = .ret ∨ ∃ opa, i = .call opa ∨ i = .jmp opa ∨ i = .jne opa ∨ i = .jeq opa := by
  cases i <;> cases h <;> simp

end OpcodeBits

/-- Settles O5, row by row of the catalogue. -/
theorem opcodeBitRegularities : Obligations.OpcodeBitRegularities :=
  fun _ _ _ h => ⟨opcode_bits_seven_six h, opcode_bit_five h, opcode_bit_four h⟩

/-! ### A line of a program file -/

/-- R116: a comment is dropped from its `#` on, or there is none. -/
theorem stripComment_append {body : List Char} (plain : '#' ∉ body) (comment : Option (List Char)) :
    stripComment (body ++ comment.elim [] fun c => '#' :: c) = body := by
  have keep : ∀ c ∈ body, decide (c ≠ '#') = true := fun c hc => decide_eq_true fun h => plain (h ▸ hc)
  rw [stripComment, List.takeWhile_append_of_pos keep]
  cases comment <;> simp

theorem dropWhile_spaces_append (n : Nat) (text : List Char) :
    (List.replicate n ' ' ++ text).dropWhile Char.isWhitespace = text.dropWhile Char.isWhitespace :=
  List.dropWhile_append_of_pos fun _ hc => (List.eq_of_mem_replicate hc) ▸ rfl

theorem dropWhile_of_no_space {text : List Char} (solid : ∀ c ∈ text, c.isWhitespace = false) :
    text.dropWhile Char.isWhitespace = text := by
  cases text with
  | nil => rfl
  | cons c rest => simp [solid c (.head rest)]

/-- R116: spaces around a text that holds none are stripped. -/
theorem trimLine_spaces {text : List Char} (solid : ∀ c ∈ text, c.isWhitespace = false) (indent gap : Nat) :
    trimLine (List.replicate indent ' ' ++ text ++ List.replicate gap ' ') = text := by
  rw [trimLine, List.append_assoc, dropWhile_spaces_append]
  cases text with
  | nil => simp
  | cons c rest =>
    have solidReversed : ∀ d ∈ (c :: rest).reverse, d.isWhitespace = false := fun d hd => solid d (List.mem_reverse.mp hd)
    rw [List.cons_append, List.dropWhile_cons_of_neg (by simp [solid c (.head rest)]), ← List.cons_append,
      List.reverse_append, List.reverse_replicate, dropWhile_spaces_append, dropWhile_of_no_space solidReversed,
      List.reverse_reverse]

/-! ### The numeral of a byte -/

/-- R7: each digit is that of one bit. -/
theorem of_mem_binaryNumeral {b : Byte} {c : Char} (h : c ∈ binaryNumeral b) : c = '0' ∨ c = '1' := by
  obtain ⟨k, -, rfl⟩ := List.mem_map.mp h
  cases b.getMsbD k
  · exact .inl rfl
  · exact .inr rfl

theorem length_binaryNumeral (b : Byte) : (binaryNumeral b).length = 8 := by
  simp [binaryNumeral]

theorem all_isBinaryDigit_binaryNumeral (b : Byte) : (binaryNumeral b).all isBinaryDigit = true := by
  rw [List.all_eq_true]
  intro c hc
  obtain rfl | rfl := of_mem_binaryNumeral hc <;> rfl

/-- R7: a further digit doubles the value and adds itself. -/
theorem binaryValue_concat (digits : List Char) (bit : Bool) :
    binaryValue (digits ++ [if bit then '1' else '0']) = 2 * binaryValue digits + bit.toNat := by
  cases bit <;> simp [binaryValue]

/-- The bit `k` places from the top is the lowest one left when the `7 - k` bits below it are cut off. -/
theorem toNat_getMsbD {k : Nat} (b : Byte) (hk : k < 8) : (b.getMsbD k).toNat = b.toNat / 2 ^ (7 - k) % 2 := by
  rw [BitVec.getMsbD_eq_getLsbD, decide_eq_true hk, Bool.true_and, ← BitVec.testBit_toNat, Nat.toNat_testBit]

/-- The first `n` digits of a byte are the numeral of its `n` highest bits, by induction digit for digit. -/
theorem binaryValue_take {n : Nat} (b : Byte) (hn : n ≤ 8) :
    binaryValue ((List.range n).map fun k => if b.getMsbD k then '1' else '0') = b.toNat / 2 ^ (8 - n) := by
  induction n with
  | zero => exact (Nat.div_eq_of_lt b.isLt).symm
  | succ n ih =>
    have halve : b.toNat / 2 ^ (8 - n) = b.toNat / 2 ^ (7 - n) / 2 := by
      rw [Nat.div_div_eq_div_mul, ← Nat.pow_succ, Nat.succ_eq_add_one, show 7 - n + 1 = 8 - n by omega]
    rw [List.range_succ, List.map_append, List.map_singleton, binaryValue_concat, ih (by omega), toNat_getMsbD b hn, halve,
      Nat.div_add_mod, show 8 - (n + 1) = 7 - n by omega]

/-- R7: the numeral of a byte reads back as the byte. -/
theorem binaryValue_binaryNumeral (b : Byte) : binaryValue (binaryNumeral b) = b.toNat :=
  (binaryValue_take b le_rfl).trans (Nat.div_one _)

/-! ### Reading a program file -/

theorem readLine_of_blank {line : List Char} (h : trimLine (stripComment line) = []) : readLine line = .blank :=
  if_pos h

theorem readLine_of_numeral {line : List Char} {b : Byte} (h : trimLine (stripComment line) = binaryNumeral b) :
    readLine line = .byte b := by
  have digits : binaryNumeral b ≠ [] := List.ne_nil_of_length_pos (by simp [length_binaryNumeral])
  simp [readLine, h, digits, all_isBinaryDigit_binaryNumeral, length_binaryNumeral, binaryValue_binaryNumeral]

/-- R116: without its comment and the spaces around it, a line is its numeral or nothing. -/
theorem trimLine_stripComment_text (l : FileLine) :
    trimLine (stripComment l.text) = l.byte.elim [] binaryNumeral := by
  have digit : ∀ c ∈ l.byte.elim [] binaryNumeral, c = '0' ∨ c = '1' := by
    cases l.byte with
    | none => simp
    | some b => exact fun c => of_mem_binaryNumeral
  have solid : ∀ c ∈ l.byte.elim [] binaryNumeral, c.isWhitespace = false := by
    intro c hc
    obtain rfl | rfl := digit c hc <;> rfl
  have plain : '#' ∉ List.replicate l.indent ' ' ++ l.byte.elim [] binaryNumeral ++ List.replicate l.gap ' ' := by
    have noDigit : '#' ∉ l.byte.elim [] binaryNumeral := fun h => absurd (digit _ h) (by decide)
    simp [noDigit]
  rw [FileLine.text, stripComment_append plain, trimLine_spaces solid]

theorem readLine_text (l : FileLine) : readLine l.text = l.byte.elim .blank .byte := by
  cases h : l.byte with
  | none => exact readLine_of_blank (by rw [trimLine_stripComment_text, h, Option.elim_none])
  | some b => exact readLine_of_numeral (by rw [trimLine_stripComment_text, h, Option.elim_some])

/-- R116: blank lines take no address, the others one each. -/
theorem readProgramFile_text (file : List FileLine) :
    readProgramFile (file.map FileLine.text) = .image (file.filterMap FileLine.byte) := by
  induction file with
  | nil => rfl
  | cons l rest ih =>
    rw [List.map_cons, readProgramFile, readLine_text, ih]
    cases h : l.byte with
    | none => rw [List.filterMap_cons_none h, Option.elim_none]
    | some b => rw [List.filterMap_cons_some h, Option.elim_some]

/-- Settles O53. -/
theorem programFileLinesAreBytes : Obligations.ProgramFileLinesAreBytes := by
  refine ⟨fun l => ?_, readProgramFile_text⟩
  rw [readLine_text]
  cases l.byte <;> rfl

end Sys2Proof.Machine

/-! ## The dispatcher (spec file 40_dispatcher.md)

What a step answers in each case is said by `step_of_fetchesInstr`, `step_of_unknownOpcode` and `step_of_not_canStep`.
Hence every step has an answer, and none leads back to `IDLE`. -/

namespace Sys2Proof.Machine

/-- R130: the step is total. -/
theorem exists_step_eq_next (s : State) : ∃ t, step s = .next t := by
  by_cases hs : canStep s
  · obtain hu | ⟨i, hi⟩ := unknown_or_fetchesInstr s
    · exact ⟨_, step_of_unknownOpcode hs hu⟩
    · obtain ⟨t, ht, -⟩ := exec_executes i (fetched s)
      exact ⟨t, (step_of_fetchesInstr hs hi).trans ht⟩
  · exact ⟨s, step_of_not_canStep hs⟩

/-- R31: no instruction leads to `IDLE`; only reset does. -/
theorem Executes.runState_ne_idle {i : Instr} {s t : State} (hx : Executes i s t) (started : s.runState ≠ .idle) :
    t.runState ≠ .idle := by
  cases hx with
  | fault => simp
  | completes _ row =>
    rw [row.runState_eq]
    split
    · simp
    · exact started

/-- R31, R53: a step request leaves `IDLE`, and no step leads back to it. -/
theorem runState_ne_idle_of_step {s t : State} (h : step s = .next t) : t.runState ≠ .idle := by
  obtain ⟨hs, rfl⟩ | ⟨-, -, rfl⟩ | ⟨-, i, -, hx⟩ := step_cases h
  · exact fun idle => hs (.inl idle)
  · simp
  · exact hx.runState_ne_idle (by simp [fetched])

/-- Settles O10: the fault is raised on the fetched state. -/
theorem unknownOpcodeStopsTheCore : Obligations.UnknownOpcodeStopsTheCore :=
  fun _ => step_of_unknownOpcode

/-- Settles O11. -/
theorem everyStepAnswersNextState : Obligations.EveryStepAnswersNextState := by
  intro s
  obtain ⟨t, ht⟩ := exists_step_eq_next s
  exact ⟨t, ht, runState_ne_idle_of_step ht⟩

/-- Settles O9. -/
theorem stepRunsDecodedInstruction : Obligations.StepRunsDecodedInstruction :=
  fun _ _ => step_of_fetchesInstr

end Sys2Proof.Machine

/-! ## The ALU (spec file 41_alu.md)

The rows of MUL and CMP are those of `Completes`; here stands what the byte and the flag they write are. -/

namespace Sys2Proof.Machine

/-! ### Illegal operands -/

section IllegalOperands

variable {i : Instr} {opa opb : Byte} {operands : List Byte}

/-- R222: an illegal first operand is the fault, whatever the other operands are. -/
theorem exec_of_first_illegal (s : State) (checks : registerOperands i = opa :: operands) (illegal : 7 < opa.toNat) :
    exec i s = .next (faultRecorded 3#2 opa s) :=
  exec_of_firstIllegalOperand s (by simp [firstIllegalOperand_eq, checks, illegalByte, illegal])

/-- R222, R226: an illegal second operand is the fault where the first is legal. -/
theorem exec_of_second_illegal (s : State) (checks : registerOperands i = opa :: opb :: operands)
    (legal : opa.toNat ≤ 7) (illegal : 7 < opb.toNat) : exec i s = .next (faultRecorded 3#2 opb s) :=
  exec_of_firstIllegalOperand s (by simp [firstIllegalOperand_eq, checks, illegalByte, illegal, legal.not_gt])

end IllegalOperands

/-! ### The product -/

/-- R151: 255 times 255 fits 16 bits, so nothing of the product is lost. -/
theorem toNat_product (x y : Byte) : (product x y).toNat = x.toNat * y.toNat := by
  have fits : x.toNat * y.toNat < 2 ^ 8 * 2 ^ 8 := Nat.mul_lt_mul'' x.isLt y.isLt
  have widen (z : Byte) : (z.zeroExtend 16).toNat = z.toNat := BitVec.toNat_setWidth_of_le (by decide)
  rw [product, BitVec.toNat_mul, widen, widen]
  exact Nat.mod_eq_of_lt fits

/-- R151: `p[7:0]` is `p mod 256`. -/
theorem toNat_mulLow (x y : Byte) : (mulLow x y).toNat = x.toNat * y.toNat % 256 := by
  rw [mulLow, BitVec.extractLsb'_toNat, Nat.shiftRight_zero, toNat_product]

/-- Settles O17: the byte written is the low byte of the exact product. -/
theorem mulKeepsLowByteOfProduct : Obligations.MulKeepsLowByteOfProduct := by
  intro opa opb s
  refine ⟨rfl, fun a b ha hb => ?_, exec_of_first_illegal s rfl, exec_of_second_illegal s rfl⟩
  exact ⟨mulLow s.regs[a] s.regs[b], toNat_mulLow _ _, exec_of_completes (.mul a b ha hb)⟩

/-! ### The compare -/

section Compare

variable {x y : Byte}

theorem compareFlag_of_lt (h : x.toNat < y.toNat) : compareFlag x y = .lt :=
  if_pos h

theorem compareFlag_of_gt (h : x.toNat > y.toNat) : compareFlag x y = .gt :=
  (if_neg h.not_gt).trans (if_pos h)

theorem compareFlag_self (x : Byte) : compareFlag x x = .eq :=
  (if_neg (lt_irrefl x.toNat)).trans (if_neg (lt_irrefl x.toNat))

theorem compareFlag_of_eq (h : x.toNat = y.toNat) : compareFlag x y = .eq :=
  BitVec.eq_of_toNat_eq h ▸ compareFlag_self x

/-- R156: the flags tell equal bytes from different ones, whichever of these is the greater. -/
theorem isEq_compareFlag (x y : Byte) : (compareFlag x y).isEq = decide (x = y) := by
  obtain rfl | differ := eq_or_ne x y
  · rw [compareFlag_self, decide_eq_true rfl]
    rfl
  · rw [decide_eq_false differ]
    obtain less | greater := lt_or_gt_of_ne (mt BitVec.eq_of_toNat_eq differ)
    · rw [compareFlag_of_lt less]
      rfl
    · rw [compareFlag_of_gt greater]
      rfl

end Compare

/-- R152: CMP on legal operands sets the flags to the outcome of the compare. -/
theorem exec_cmp_of_compareFlag {opa opb : Byte} {a b : Fin 8} {s : State} {f : Flag} (ha : opa.toNat = a.val)
    (hb : opb.toNat = b.val) (hf : compareFlag s.regs[a] s.regs[b] = f) :
    exec (.cmp opa opb) s = .next { s with fl := f, pc := s.pc + 3 } :=
  hf ▸ exec_of_completes (.cmp a b ha hb)

/-- Settles O18. -/
theorem cmpComparesThreeWays : Obligations.CmpComparesThreeWays := by
  intro opa opb s
  refine ⟨rfl, fun a b ha hb => ⟨fun less => ?_, fun greater => ?_, fun equal => ?_⟩,
    exec_of_first_illegal s rfl, exec_of_second_illegal s rfl⟩
  · exact exec_cmp_of_compareFlag ha hb (compareFlag_of_lt less)
  · exact exec_cmp_of_compareFlag ha hb (compareFlag_of_gt greater)
  · exact exec_cmp_of_compareFlag ha hb (compareFlag_of_eq equal)

/-- Settles O41: the jumps test whether the compare found the values equal, and CMP writes no register. -/
theorem branchFollowsCompare : Obligations.BranchFollowsCompare := by
  intro opa opb opc a b c s ha hb hc
  refine ⟨_, _, _, exec_of_completes (.cmp a b ha hb), exec_of_completes (.jeq c hc), exec_of_completes (.jne c hc), ?_⟩
  by_cases h : s.regs[a] = s.regs[b] <;> simp [isEq_compareFlag, h, BitVec.add_assoc]

end Sys2Proof.Machine

/-! ## The stack (spec file 42_stack.md)

The rows of PUSH, POP, CALL and RET are those of `Completes`; here stands what a push leaves in each register and at each
address, for one push and for a sequence of them. -/

namespace Sys2Proof.Machine

/-! ### One push -/

/-- R170: the pushed byte stands at the decremented stack pointer, every other byte as before. -/
theorem read_push (v : Byte) (s : State) (x : Byte) :
    (push v s).mem.read x = if x = pushAddress s then v else s.mem.read x := by
  rw [push_mem, Memory.read_write, pushAddress]

/-- R170: after a push `x[7]` holds the address pushed to, every other register what it held. -/
theorem readReg_push (r : Fin Config.numRegs) (v : Byte) (s : State) :
    readReg r (push v s) = if r = 7 then pushAddress s else readReg r s :=
  readReg_writeReg 7 r (pushAddress s) s

/-- Settles O19. -/
theorem pushStoresRegister : Obligations.PushStoresRegister := by
  intro opa s
  refine ⟨rfl, fun a ha => ?_, exec_of_first_illegal s rfl⟩
  exact ⟨(push s.regs[a] s).mem, exec_of_completes (.push a ha), read_push s.regs[a] s⟩

/-- Settles O21: the target is read from the register file that the push left. -/
theorem callPushesReturnAddress : Obligations.CallPushesReturnAddress := by
  intro opa s
  refine ⟨rfl, fun a ha => ?_, exec_of_first_illegal s rfl⟩
  refine ⟨(push (s.pc + 2) s).mem, ?_, read_push (s.pc + 2) s⟩
  rw [exec_of_completes (.call a ha), readReg_push]
  rfl

/-- Settles O20. -/
theorem popLoadsRegister : Obligations.PopLoadsRegister := by
  intro opa s
  exact ⟨rfl, fun a ha => exec_of_completes (.pop a ha), exec_of_first_illegal s rfl⟩

/-- Settles O22. -/
theorem retPopsProgramCounter : Obligations.RetPopsProgramCounter :=
  ⟨rfl, fun _ => exec_of_completes .ret⟩

/-! ### A push and the pop that undoes it -/

/-- Settles O43: between the push and the pop only `pc` moves, so the pop undoes the push (`pop_push`). -/
theorem pushThenPopCopies : Obligations.PushThenPopCopies := by
  intro opa opb a b s ha hb
  refine ⟨_, _, exec_of_completes (.push a ha), exec_of_completes (.pop b hb), ?_, ?_, rfl⟩
  · obtain ⟨value, restored⟩ := pop_push s.regs[a] s
    calc _ = (pop (push s.regs[a] s)).2.regs.set b (pop (push s.regs[a] s)).1 := rfl
      _ = s.regs.set b s.regs[a] := by rw [restored, value]
  · simp [BitVec.add_assoc]

/-- Settles O44. -/
theorem callThenRetReturns : Obligations.CallThenRetReturns := by
  intro opa s t u legal h hsp hmem
  have row := exec_of_completes (s := s) (.call ⟨opa.toNat, Nat.lt_succ_of_le legal⟩ rfl)
  obtain rfl := Host.Outcome.next.inj (row.symm.trans h)
  have sp : u.regs[7] = pushAddress s := hsp.trans (readReg_push 7 (s.pc + 2) s)
  refine ⟨_, exec_of_completes .ret, ?_, ?_⟩
  · calc u.mem.read u.regs[7]
        = (push (s.pc + 2) s).mem.read (pushAddress s) := by rw [sp]; exact hmem
      _ = s.pc + 2 := by rw [read_push, if_pos rfl]
  · simp [sp, pushAddress]

/-! ### A sequence of pushes -/

/-- The bytes pushed in order, the first of the list first. -/
def pushAll (pushed : List Byte) (s : State) : State := pushed.foldl (fun s v => push v s) s

@[simp] theorem pushAll_nil (s : State) : pushAll [] s = s := rfl

@[simp] theorem pushAll_cons (b : Byte) (rest : List Byte) (s : State) :
    pushAll (b :: rest) s = pushAll rest (push b s) := rfl

/-- R170: `n` pushes move the stack pointer down by `n`. -/
theorem sp_pushAll (pushed : List Byte) (s : State) :
    (pushAll pushed s).regs[7] = s.regs[7] - BitVec.ofNat 8 pushed.length := by
  induction pushed generalizing s with
  | nil => simp
  | cons b rest ih =>
    have one : (push b s).regs[7] = s.regs[7] - 1 := readReg_push 7 b s
    rw [pushAll_cons, ih, one, List.length_cons]
    bv_omega

/-- R170: pushed bytes that fit stand from the first push address down, around address 0 if they reach so far, and every
other byte is as it was. -/
theorem read_pushAll (pushed : List Byte) (s : State) (fits : pushed.length ≤ Config.memSize) (x : Byte) :
    (pushAll pushed s).mem.read x = pushed.getD (pushAddress s - x).toNat (s.mem.read x) := by
  induction pushed generalizing s with
  | nil => rfl
  | cons b rest ih =>
    have short : rest.length < 256 := fits
    have next : pushAddress (push b s) = pushAddress s - 1 := congrArg (· - 1) (readReg_push 7 b s)
    rw [pushAll_cons, ih (push b s) short.le, next, read_push]
    by_cases hx : x = pushAddress s
    · -- the rest would come round to this address only as byte 255, which it does not have
      have behind : rest.length ≤ (pushAddress s - 1 - x).toNat := by bv_omega
      rw [List.getD_eq_default _ _ behind]
      simp [hx]
    · have later : (pushAddress s - x).toNat = (pushAddress s - 1 - x).toNat + 1 := by bv_omega
      rw [later, List.getD_cons_succ, if_neg hx]

/-- Settles O45: from reset the first push address is 254. -/
theorem stackLayoutAfterReset : Obligations.StackLayoutAfterReset := by
  intro pushed short
  have sp : (pushAll pushed State.reset).regs[7] = 255#8 - BitVec.ofNat 8 pushed.length :=
    sp_pushAll pushed State.reset
  have reads (x : Byte) : (pushAll pushed State.reset).mem.read x = pushed.getD (254#8 - x).toNat 0#8 :=
    read_pushAll pushed State.reset (Nat.le_succ_of_le short) x
  refine ⟨pushAll pushed State.reset, rfl, ?_, fun k hk => ?_, fun a outside => ?_⟩
  · rw [sp]
    bv_omega
  · have number : (254#8 - BitVec.ofNat 8 (254 - k)).toNat = k := by bv_omega
    rw [reads, number, List.getD_eq_getElem _ _ hk]
  · have behind : pushed.length ≤ (254#8 - a).toNat := by bv_omega
    rw [reads, List.getD_eq_default _ _ behind]

end Sys2Proof.Machine

/-! ## Control flow (spec file 43_control_flow.md)

The rows of JMP, JEQ, JNE and HLT are those of `Completes`; here stands what their conditions test, which `pc` each row
leaves, and what a run does that comes back to its own state. -/

namespace Sys2Proof.Machine

/-! ### The jumps -/

theorem Flag.isEq_eq_decide (f : Flag) : f.isEq = decide (f = .eq) := by
  cases f <;> rfl

section Jumps

variable {opa : Byte} {a : Fin 8} {s : State}

/-- R191: JEQ on a legal operand, with the flags' test written out. -/
theorem exec_jeq (ha : opa.toNat = a.val) :
    exec (.jeq opa) s = .next { s with pc := if s.fl = .eq then s.regs[a] else s.pc + 2 } := by
  rw [exec_of_completes (.jeq a ha), Flag.isEq_eq_decide]
  simp [setPc]

/-- R192: JNE on a legal operand, with the flags' test written out. -/
theorem exec_jne (ha : opa.toNat = a.val) :
    exec (.jne opa) s = .next { s with pc := if s.fl = .eq then s.pc + 2 else s.regs[a] } := by
  rw [exec_of_completes (.jne a ha), Flag.isEq_eq_decide]
  simp [setPc]

end Jumps

/-- Settles O23. -/
theorem jmpGoesToRegister : Obligations.JmpGoesToRegister :=
  fun _ s => ⟨rfl, fun a ha => exec_of_completes (.jmp a ha), exec_of_first_illegal s rfl⟩

/-- Settles O24. -/
theorem jeqJumpsOnEqual : Obligations.JeqJumpsOnEqual := by
  refine fun opa s => ⟨rfl, fun a ha => ⟨fun equal => ?_, fun differ => ?_⟩, exec_of_first_illegal s rfl⟩
  · rw [exec_jeq ha, if_pos equal]
  · rw [exec_jeq ha, if_neg differ]

/-- Settles O25. -/
theorem jneJumpsOnNotEqual : Obligations.JneJumpsOnNotEqual := by
  refine fun opa s => ⟨rfl, fun a ha => ⟨fun differ => ?_, fun equal => ?_⟩, exec_of_first_illegal s rfl⟩
  · rw [exec_jne ha, if_neg differ]
  · rw [exec_jne ha, if_pos equal]

/-- Settles O40. -/
theorem jeqAndJneAreComplements : Obligations.JeqAndJneAreComplements := by
  intro opa a s ha
  refine ⟨_, _, exec_jeq ha, exec_jne ha, ?_⟩
  by_cases h : s.fl = .eq
  · exact .inl ⟨h, if_pos h, if_pos h⟩
  · exact .inr ⟨h, if_neg h, if_neg h⟩

/-! ### The program counter -/

theorem operandValue_legal {opa : Byte} {a : Fin 8} (s : State) (ha : opa.toNat = a.val) :
    operandValue opa s = s.regs[a] := by
  simp [operandValue, ha]

/-- R194: the table is the `pc` that each row leaves. -/
theorem Completes.pc_eq {i : Instr} {s t : State} (row : Completes i s t) : t.pc = pcAfter i s := by
  cases row with
  | ldi | prn | mul | pop | push | cmp | hlt | ret => rfl
  | jmp a ha => simp [pcAfter, operandValue_legal s ha]
  | jeq a ha => simp [pcAfter, operandValue_legal s ha, Flag.isEq_eq_decide]
  | jne a ha => simp [pcAfter, operandValue_legal s ha, Flag.isEq_eq_decide]
  | call a ha =>
    -- the target is read behind the push, which has written `x[7]` alone
    rw [setPc_pc, readReg_push]
    simp [pcAfter, operandValue_legal s ha, ha, Fin.ext_iff]

/-- R194, R223: the table's `pc` where the instruction completes, the old one where it faults. -/
theorem Executes.pc_eq {i : Instr} {s t : State} (hx : Executes i s t) :
    t.pc = if i.wellFormed = true then pcAfter i s else s.pc := by
  cases hx with
  | fault first => simp [wellFormed_iff, first]
  | completes legal row => simp [wellFormed_iff, legal, row.pc_eq]

/-- The table reads nothing that the fetch writes. -/
theorem pcAfter_fetched (i : Instr) (s : State) : pcAfter i (fetched s) = pcAfter i s := by
  cases i <;> rfl

/-- Settles O32: a step executes the fetched instruction on the fetched state, or faults on the opcode. -/
theorem programCounterTable : Obligations.ProgramCounterTable := by
  intro s t hs h
  constructor
  · intro i hi
    rw [step_of_fetchesInstr hs hi] at h
    rw [(executes_of_exec h).pc_eq, pcAfter_fetched]
    rfl
  · intro unknown
    rw [step_of_unknownOpcode hs unknown] at h
    cases h
    rfl

/-! ### Runs that stay where they are -/

/-- Settles O26: HLT leads to a final state. -/
theorem hltEndsTheRun : Obligations.HltEndsTheRun :=
  ⟨rfl, fun _ => ⟨exec_of_completes .hlt, exitStatus_of_halted rfl, fun k => finalStatesNeverChange _ k (.inl rfl)⟩⟩

/-- R190: a step on a JMP to its own address does nothing but fetch. -/
theorem step_of_jmp_to_itself {s : State} {opa : Byte} {a : Fin 8} (hs : canStep s) (hi : fetchesInstr s (.jmp opa))
    (ha : opa.toNat = a.val) (itself : s.regs[a] = s.pc) : step s = .next (fetched s) := by
  have jump : exec (.jmp opa) (fetched s) = .next (setPc s.regs[a] (fetched s)) := exec_of_completes (.jmp a ha)
  calc step s
      = .next (setPc s.regs[a] (fetched s)) := (step_of_fetchesInstr hs hi).trans jump
    _ = .next (fetched s) := by rw [itself]; rfl

/-- A run whose first step leads to `t` goes on from `t` (R136). -/
theorem run_succ_of_step {s t : State} (h : step s = .next t) (k : Nat) :
    Host.Core.run Sys2Proof.core (k + 1) s = Host.Core.run Sys2Proof.core k t := by
  have hstep : Sys2Proof.core.step s = .next t := h
  simp only [Host.Core.run, hstep]

/-- Settles O47: the first step leads to the fetched state, which holds the same jump and which a further fetch leaves as
it is. -/
theorem jumpToItselfNeverEnds : Obligations.JumpToItselfNeverEnds := by
  intro s opa a k hs hi ha itself
  have first : step s = .next (fetched s) := step_of_jmp_to_itself hs hi ha itself
  have again : step (fetched s) = .next (fetched s) :=
    step_of_jmp_to_itself (s := fetched s) (.inr rfl) hi ha itself
  rw [run_succ_of_step first, run_of_step_eq again]

end Sys2Proof.Machine

/-! ## Load and print (spec file 44_load_and_print.md)

The rows of LDI and PRN are those of `Completes`; the immediate is not among the checked operands, so a byte above 7 is an
immediate like any other (R108, R110). -/

namespace Sys2Proof.Machine

/-- Settles O15: LDI checks its register operand alone. -/
theorem ldiLoadsImmediate : Obligations.LdiLoadsImmediate := by
  intro opa imm s
  refine ⟨rfl, fun a ha => ?_, fun illegal => ?_⟩
  · exact exec_of_completes (.ldi a ha)
  · exact exec_of_first_illegal s rfl illegal

/-- Settles O16: an illegal operand is found before anything is emitted. -/
theorem prnEmitsRegister : Obligations.PrnEmitsRegister := by
  intro opa s
  refine ⟨rfl, fun a ha => ?_, fun illegal => ?_⟩
  · exact exec_of_completes (.prn a ha)
  · exact exec_of_first_illegal s rfl illegal

end Sys2Proof.Machine

/-! ## Exceptions (spec file 60_exceptions.md)

The table of a step's faults, `firstFault`, agrees on each row of the catalogue with the operand checks of the instruction
(R226). In a final state the invariant ties the fault record to the run state (R229). -/

namespace Sys2Proof.Machine

/-! ### The order of the checks -/

/-- Settles O33: an instruction faults on its first illegal operand, and where there is none its row keeps the fault
record. -/
theorem illegalOperandExactlyAboveSeven : Obligations.IllegalOperandExactlyAboveSeven := by
  intro i s
  constructor
  · exact fun b first => exec_of_firstIllegalOperand s first
  · intro legal
    obtain ⟨t, ht, hx⟩ := exec_executes i s
    cases hx with
    | fault first => cases legal.symm.trans first
    | completes _ row => exact ⟨t, ht, row.faultCode_eq, row.faultInfo_eq⟩

/-- R226: an unknown opcode comes before any operand. -/
theorem firstFault_of_unknown {opc : Byte} (unknown : opc ∉ legalOpcodes) (opa opb : Byte) :
    firstFault opc opa opb = some (1#2, opc) :=
  if_pos unknown

/-- R226: behind an opcode, the fault is the first illegal operand of the instruction. -/
theorem firstFault_of_decode {opc opa opb : Byte} {i : Instr} (h : decode opc opa opb = .ok i) :
    firstFault opc opa opb = (firstIllegalOperand i).map (3#2, ·) := by
  unfold decode at h
  split at h <;> cases h <;> simp [firstFault, legalOpcodes, firstIllegalOperand]
  -- MUL and CMP are left, which check a second operand where the first is legal
  all_goals split <;> simp

/-- R193, R223: an instruction that completes does not fault the core. -/
theorem Completes.runState_ne_faulted {i : Instr} {s t : State} (row : Completes i s t)
    (unfaulted : s.runState ≠ .faulted) : t.runState ≠ .faulted := by
  rw [row.runState_eq]
  split
  · simp
  · exact unfaulted

/-- Settles O34: a step faults on the opcode, faults on the first illegal operand, or completes. -/
theorem firstFaultIsReported : Obligations.FirstFaultIsReported := by
  intro s t hs h
  obtain ⟨hn, -⟩ | ⟨-, unknown, rfl⟩ | ⟨-, i, hi, hx⟩ := step_cases h
  · exact absurd hs hn
  · rw [firstFault_of_unknown unknown]
    exact ⟨fun | _, _, rfl => rfl, nofun⟩
  · rw [firstFault_of_decode hi]
    cases hx with
    | fault first =>
      rw [first]
      exact ⟨fun | _, _, rfl => rfl, nofun⟩
    | completes legal row =>
      rw [legal]
      exact ⟨nofun, fun _ => ⟨row.runState_ne_faulted (by simp [fetched]), row.faultCode_eq, row.faultInfo_eq⟩⟩

/-! ### Final states -/

/-- R138: the final states are those in which a step request executes nothing. -/
theorem State.final_iff_not_canStep (s : State) : s.final = true ↔ ¬ canStep s := by
  simp [State.final, ← acceptsStep_iff]

/-- R138: a final state is `HALTED` or `FAULTED`. -/
theorem State.halted_iff_of_final {s : State} (final : s.final = true) :
    s.runState = .halted ↔ s.runState ≠ .faulted := by
  cases h : s.runState <;> simp [State.final, RunState.acceptsStep, h] at final ⊢

namespace Inv

variable {s : State}

/-- R229: `HALTED` is the only successful end, for the invariant excludes a fault code there. -/
theorem succeeded_iff (inv : Inv s) : s.succeeded = true ↔ s.runState = .halted := by
  have noCode (halted : s.runState = .halted) : s.faultCode = 0#2 := by
    simpa [halted] using inv.codeIffFaulted
  simpa [State.succeeded] using noCode

/-- R229: a state names a fault exactly in `FAULTED`, where the invariant leaves the codes 1 and 3. -/
theorem faultOutcome_eq_none_iff (inv : Inv s) : s.faultOutcome = none ↔ s.runState ≠ .faulted := by
  constructor
  · intro unnamed faulted
    have code : s.faultCode ≠ 0#2 := inv.codeIffFaulted.mpr faulted
    have notAlu : s.faultCode ≠ 2#2 := inv.neverAluUnsupported
    have named : s.faultCode = 1#2 ∨ s.faultCode = 3#2 := by bv_omega
    obtain h | h := named <;> simp [State.faultOutcome, faulted, h] at unnamed
  · intro unfaulted
    unfold State.faultOutcome
    split
    case h_4 => rfl
    all_goals exact absurd ‹_› unfaulted

end Inv

/-- Settles O36. -/
theorem finalStatesSucceedOrNameTheirFault : Obligations.FinalStatesSucceedOrNameTheirFault := by
  intro s inv final
  refine ⟨?_, inv.succeeded_iff, fun t h => ?_⟩
  · rw [inv.succeeded_iff, inv.faultOutcome_eq_none_iff, State.halted_iff_of_final final]
  · cases (step_of_not_canStep ((State.final_iff_not_canStep s).mp final)).symm.trans h
    exact ⟨rfl, rfl⟩

end Sys2Proof.Machine

/-! ## The first step after reset (spec file 70_reset_and_hazards.md, section 1) -/

namespace Sys2Proof.Machine

/-- R229: the fault raised is the one the state names. -/
@[simp] theorem faultOutcome_raise (f : Fault) (s : State) : (raise f s).faultOutcome = some f := by
  cases f <;> rfl

/-- R250: nothing is loaded, so the byte at address 0 is the 0 of reset, which is no opcode. -/
theorem step_reset : step State.reset = .next (raise (.unknownOpcode 0#8) (fetched State.reset)) := by
  have idle : canStep State.reset := .inl rfl
  have unknown : State.reset.mem.read State.reset.pc ∉ legalOpcodes := by decide
  exact step_of_unknownOpcode idle unknown

/-- Settles O8: fetching and raising leave all that reset gave but the run state, the fault record and the latches. -/
theorem stepAtResetStopsOnZeroByte : Obligations.StepAtResetStopsOnZeroByte :=
  ⟨_, step_reset, faultOutcome_raise _ _, rfl, rfl, rfl, rfl, rfl⟩

end Sys2Proof.Machine
